-- ==== Sys2Proof/Word.lean ====
section
/-! DEFINITION. The byte, the one word of the block (spec/00_scope.md section 6: every quantity is unsigned, bytes are 8
bits, cursors and lengths are natural numbers with no wrap-around). -/

namespace Sys2Proof

/-- A byte: an unsigned integer in 0..255, bit 7 the most significant (00_scope.md section 6). -/
abbrev Byte := BitVec 8

/-- `255 - x`, computed in the integers; the result is again a byte (30_encoding.md R100). -/
def complement (x : Byte) : Byte := BitVec.ofNat 8 (255 - x.toNat)

end Sys2Proof
end

