-- ==== Sys2Proof/Config.lean ====
section
/-! DEFINITION. The configuration record CFG (spec/00_scope.md section 4, R5 to R10): what an instance is built with and no
operation writes. A configuration that is not well formed is no value of the type `Config` (R6, 93 K17). -/

namespace Sys2Proof

/-- How the spec's examples turn a number into the four value bytes (R10). No rule of the block reads it. -/
inductive ByteOrder where
  | little
  | big
  deriving DecidableEq, Repr

/-- The open parameters, not yet checked (00_scope.md section 4; 92_eei_decisions.md D1, D2, D5, D6, D7). -/
structure Params where
  /-- `START`, the byte that opens a frame (R5). -/
  startByte : Byte
  /-- `END`, the byte that closes a frame (R5). -/
  endByte : Byte
  /-- `ESCAPE`, the escape introducer (R5). -/
  escapeByte : Byte
  /-- `ENC_FRAME_CAP`, the capacity of one whole unescaped frame (R7). -/
  encFrameCap : Nat
  /-- `DEC_CAP`, the capacity of the decoder's buffer of unescaped bytes (R8). -/
  decCap : Nat
  /-- `CRC_POLY`, the generator without its `x^8` term (R9, R133). -/
  crcPoly : Byte
  /-- `CRC_INIT_VAL`, the register's initial value (R9, R133). -/
  crcInitVal : Byte
  /-- `CRC_REFIN`: reflect each input byte (R9, R133). -/
  crcRefin : Bool
  /-- `CRC_REFOUT`: reflect the register before the final XOR (R9, R133). -/
  crcRefout : Bool
  /-- `CRC_XOROUT`, the value XORed into the result (R9, R133). -/
  crcXorout : Byte
  /-- `VALUE_ORDER`, for examples only (R10). -/
  valueOrder : ByteOrder
  deriving DecidableEq, Repr

/-- `ENC_MAX_MSGS = floor((ENC_FRAME_CAP - 4) / 5)` (R7). -/
def Params.encMaxMsgs (p : Params) : Nat := (p.encFrameCap - 4) / 5

/-- `ENC_OUT_CAP = 2 * (5 * ENC_MAX_MSGS + 2) + 2` (R7). -/
def Params.encOutCap (p : Params) : Nat := 2 * (5 * p.encMaxMsgs + 2) + 2

/-- The three reserved values (R5). -/
def Params.reserved (p : Params) : List Byte := [p.startByte, p.endByte, p.escapeByte]

/-- Well-formedness: R6 (a) the reserved values are pairwise distinct, R6 (b) no complement of one is reserved, and the
constraint column of 00_scope.md section 4 (R7, R8, R9). -/
abbrev Params.WellFormed (p : Params) : Prop :=
  p.reserved.Nodup ∧ (∀ r ∈ p.reserved, complement r ∉ p.reserved) ∧
    4 ≤ p.encFrameCap ∧ p.encMaxMsgs ≤ 255 ∧ 2 ≤ p.decCap ∧ p.crcPoly ≠ 0

/-- A configuration: well-formed parameters, fixed for the life of an instance (R5, R6). -/
structure Config extends Params where
  /-- "no instance exists for an ill-formed one" (93_implementation_defined.md K17). -/
  ok : toParams.WellFormed
  deriving DecidableEq, Repr

/-- Building an instance's configuration: refused where the parameters are not well formed (R6). -/
def Config.ofParams? (p : Params) : Option Config :=
  if h : p.WellFormed then some { toParams := p, ok := h } else none

/-- The reference parameters of every test vector (00_scope.md section 4; the numbers are PRESUMED by the spec itself, 93 K2
and K4; log 14). -/
def Params.reference : Params :=
  { startByte := 0x0D, endByte := 0x0A, escapeByte := 0x1B, encFrameCap := 200, decCap := 200,
    crcPoly := 0x07, crcInitVal := 0x00, crcRefin := false, crcRefout := false, crcXorout := 0x00,
    valueOrder := .little }

/-- The reference configuration. -/
def Config.reference : Config := { toParams := Params.reference, ok := by decide }

end Sys2Proof
end

