-- ==== Sys2Proof/Syntax.lean ====
section
/-! DEFINITION. The operations of the block, one constructor of `Instr` per row of spec/opcode_table.json, the Message they
carry, and the requests an owner can issue. -/

namespace Sys2Proof

/-- A Message: the command byte and four opaque value bytes, in wire order (30_encoding.md R90, 20_memory.md R64). -/
structure Message where
  /-- wire offset 0 -/
  command : Byte
  /-- wire offset 1 -/
  value0 : Byte
  /-- wire offset 2 -/
  value1 : Byte
  /-- wire offset 3 -/
  value2 : Byte
  /-- wire offset 4 -/
  value3 : Byte
  deriving DecidableEq, Repr

/-- The two values of `DEC.STATE` (10_state.md R26). -/
inductive FrameState where
  | awaitingStart
  | inFrame
  deriving DecidableEq, Repr

/-- What an owner can ask of the block (30_encoding.md R105 and R109, 42_decoder.md R180, R181; 70 R273). Pseudo-operations and
CRC primitives have no request of their own (opcode_table.json). -/
inductive Request where
  /-- one decoder input byte, FEED(b) -/
  | byte (b : Byte)
  /-- DEC_RESET: "a separate request line or call, not an input byte" -/
  | decReset
  /-- an encoder command: its 2-bit code and the operand bytes that follow it -/
  | command (code : BitVec 2) (operand : List Byte)
  deriving DecidableEq, Repr

/-- A command of an encoder's command trace (R105, R109; 70_reset_and_hazards.md R274): "a model is free to use an enumeration".
The reserved code selects no command, so no trace holds it. -/
inductive EncCommand where
  /-- ENC_RESET -/
  | reset
  /-- ADD_MESSAGE of one Message -/
  | addMessage (m : Message)
  /-- FINALIZE -/
  | finalize
  deriving DecidableEq, Repr

/-- The instructions: the rows of spec/opcode_table.json, in its order. A FEED row fixes the context it applies in; its byte is
an operand where the row leaves it free. -/
inductive Instr where
  /-- FEED.AWAIT.START (R182) -/
  | feedAwaitStart
  /-- FEED.AWAIT.OTHER (R183) -/
  | feedAwaitOther (b : Byte)
  /-- FEED.FRAME.START (R184) -/
  | feedFrameStart
  /-- FEED.FRAME.ESCAPE (R185) -/
  | feedFrameEscape
  /-- FEED.FRAME.END (R186) -/
  | feedFrameEnd
  /-- FEED.FRAME.DATA (R187) -/
  | feedFrameData (b : Byte)
  /-- FEED.FRAME.ESCDATA (R188) -/
  | feedFrameEscdata (b : Byte)
  /-- FEED.FRAME.OVERRUN (R189) -/
  | feedFrameOverrun (b : Byte)
  /-- DEC_RESET (R180) -/
  | decReset
  /-- ENC_RESET (R150) -/
  | encReset
  /-- ADD_MESSAGE (R151, R152) -/
  | addMessage (m : Message)
  /-- FINALIZE (R154) -/
  | finalize
  /-- ENC_CMD_RESERVED (R105): the code 0b11, which selects no command -/
  | encCmdReserved
  /-- ADD_BATCH (R153), a pseudo-operation -/
  | addBatch (ms : List Message)
  /-- encode (R159), a pseudo-operation -/
  | encodeMessages (ms : List Message)
  /-- decode_first_message (R110), a pseudo-operation -/
  | decodeFirstMessage (bytes : List Byte)
  /-- feed_all (R110), a pseudo-operation -/
  | feedAll (bytes : List Byte)
  /-- CRC_INIT (R134), an internal primitive -/
  | crcInit
  /-- CRC_UPDATE (R135), an internal primitive -/
  | crcUpdate (acc : Byte) (bytes : List Byte)
  /-- CRC_FINALIZE (R136), an internal primitive -/
  | crcFinalize (acc : Byte)
  deriving DecidableEq, Repr

end Sys2Proof
end

