-- ==== Sys2Proof/WellFormed.lean ====
section
/-! DEFINITION. Which terms of `Instr` are instructions of a block with a given configuration: the operand limits of the
opcode table's rows ("symbolic_test", "excluded_values") and the domain of `encode` (41_encoder.md R159). -/

namespace Sys2Proof

/-- An instruction is well formed for a configuration: a row's byte is of the row's class (opcode_table.json "symbolic_test";
42_decoder.md R183, R187 to R189), and `encode` is given at most ENC_MAX_MSGS messages (R159). -/
def Instr.wellFormed (cfg : Config) : Instr → Bool
  | .feedAwaitStart => true
  | .feedAwaitOther b => b != cfg.startByte
  | .feedFrameStart => true
  | .feedFrameEscape => true
  | .feedFrameEnd => true
  | .feedFrameData b => !cfg.reserved.contains b
  | .feedFrameEscdata b => !cfg.reserved.contains b
  | .feedFrameOverrun b => !cfg.reserved.contains b
  | .decReset => true
  | .encReset => true
  | .addMessage _ => true
  | .finalize => true
  | .encCmdReserved => true
  | .addBatch _ => true
  | .encodeMessages ms => decide (ms.length ≤ cfg.encMaxMsgs)
  | .decodeFirstMessage _ => true
  | .feedAll _ => true
  | .crcInit => true
  | .crcUpdate _ _ => true
  | .crcFinalize _ => true

/-- The instructions with an encoding of their own: decoder input bytes, DEC_RESET and encoder commands. The pseudo-operations
expand to these and the CRC primitives have no external encoding (opcode_table.json "format"). -/
def Instr.hasEncoding : Instr → Bool
  | .feedAwaitStart => true
  | .feedAwaitOther _ => true
  | .feedFrameStart => true
  | .feedFrameEscape => true
  | .feedFrameEnd => true
  | .feedFrameData _ => true
  | .feedFrameEscdata _ => true
  | .feedFrameOverrun _ => true
  | .decReset => true
  | .encReset => true
  | .addMessage _ => true
  | .finalize => true
  | .encCmdReserved => true
  | .addBatch _ => false
  | .encodeMessages _ => false
  | .decodeFirstMessage _ => false
  | .feedAll _ => false
  | .crcInit => false
  | .crcUpdate _ _ => false
  | .crcFinalize _ => false

end Sys2Proof
end

