-- ==== Sys2Proof/Decode.lean ====
section
/-! DEFINITION. Reading a request as an instruction, and writing an instruction as requests. A decoder input byte is read in a
context (DEC.STATE, DEC.ESC, whether the buffer is full), because its row depends on it (42_decoder.md R181); an encoder
command by its 2-bit code and operand bytes (30_encoding.md R105). Every request is read; a command with the wrong number of
operand bytes is rejected by name. -/

namespace Sys2Proof

/-! ### Messages as bytes -/

/-- The 5-byte wire form of a Message: command, then the value bytes in their order (R90, R64). -/
def Message.bytes (m : Message) : List Byte := [m.command, m.value0, m.value1, m.value2, m.value3]

/-- The Message of 5 bytes in wire order (R90). -/
def messageOfBytes : List Byte → Option Message
  | [c, v0, v1, v2, v3] => some ⟨c, v0, v1, v2, v3⟩
  | _ => none

/-- The low 40 bits of a number as 5 bytes, the most significant first (opcode_table.json row ADD_MESSAGE: "the 5 operand
bytes in wire order"). -/
def bytesOfBits40 (w : Nat) : List Byte :=
  [BitVec.ofNat 8 (w >>> 32), BitVec.ofNat 8 (w >>> 24), BitVec.ofNat 8 (w >>> 16),
    BitVec.ofNat 8 (w >>> 8), BitVec.ofNat 8 w]

/-! ### Decoder byte classes and rows -/

/-- The four classes of an input byte (R102). -/
inductive ByteClass where
  | start
  | escape
  | endFrame
  | data
  deriving DecidableEq, Repr

/-- The class of a byte, decided by value alone, in the order of tests of R102. -/
def classify (cfg : Config) (b : Byte) : ByteClass :=
  if b = cfg.startByte then .start
  else if b = cfg.escapeByte then .escape
  else if b = cfg.endByte then .endFrame
  else .data

/-- What of a decoder's state the row of a FEED depends on (R181). -/
structure DecContext where
  /-- `DEC.STATE` -/
  state : FrameState
  /-- `DEC.ESC` -/
  esc : Bool
  /-- `DEC.LEN = DEC_CAP` -/
  full : Bool
  deriving DecidableEq, Repr

/-- The rows of FEED (42_decoder.md R182 to R189). -/
inductive FeedRow where
  | awaitStart
  | awaitOther
  | frameStart
  | frameEscape
  | frameEnd
  | frameData
  | frameEscdata
  | frameOverrun
  deriving DecidableEq, Repr

/-- The dispatch of FEED (R181): exactly one row for every context and byte. -/
def selectRow (cfg : Config) (ctx : DecContext) (b : Byte) : FeedRow :=
  match ctx.state with
  | .awaitingStart => if b = cfg.startByte then .awaitStart else .awaitOther
  | .inFrame =>
    match classify cfg b with
    | .start => .frameStart
    | .escape => .frameEscape
    | .endFrame => .frameEnd
    | .data => if ctx.full then .frameOverrun else if ctx.esc then .frameEscdata else .frameData

/-- The instruction of a row: the byte is an operand where the row leaves it free. -/
def FeedRow.instr (row : FeedRow) (b : Byte) : Instr :=
  match row with
  | .awaitStart => .feedAwaitStart
  | .awaitOther => .feedAwaitOther b
  | .frameStart => .feedFrameStart
  | .frameEscape => .feedFrameEscape
  | .frameEnd => .feedFrameEnd
  | .frameData => .feedFrameData b
  | .frameEscdata => .feedFrameEscdata b
  | .frameOverrun => .feedFrameOverrun b

/-! ### Requests to instructions -/

/-- Why a request is no instruction (log 7). -/
inductive DecodeError where
  /-- an encoder command whose code takes another number of operand bytes than `got` -/
  | operandLength (code : BitVec 2) (got : Nat)
  deriving DecidableEq, Repr

/-- An encoder command by its code (R105): 0b00 and 0b10 take no operand, 0b01 takes one Message, 0b11 selects no command. -/
def decodeCommand (code : BitVec 2) (operand : List Byte) : Except DecodeError Instr :=
  if code = 0b00#2 then
    if operand = [] then .ok .encReset else .error (.operandLength code operand.length)
  else if code = 0b01#2 then
    match messageOfBytes operand with
    | some m => .ok (.addMessage m)
    | none => .error (.operandLength code operand.length)
  else if code = 0b10#2 then
    if operand = [] then .ok .finalize else .error (.operandLength code operand.length)
  else .ok .encCmdReserved

/-- The decoder of requests, total. -/
def decode (cfg : Config) (ctx : DecContext) : Request → Except DecodeError Instr
  | .byte b => .ok ((selectRow cfg ctx b).instr b)
  | .decReset => .ok .decReset
  | .command code operand => decodeCommand code operand

/-! ### Instructions to requests -/

/-- The byte of a FEED row, none for another instruction (R182 to R189). -/
def Instr.inputByte? (cfg : Config) : Instr → Option Byte
  | .feedAwaitStart => some cfg.startByte
  | .feedAwaitOther b => some b
  | .feedFrameStart => some cfg.startByte
  | .feedFrameEscape => some cfg.escapeByte
  | .feedFrameEnd => some cfg.endByte
  | .feedFrameData b => some b
  | .feedFrameEscdata b => some b
  | .feedFrameOverrun b => some b
  | .decReset => none
  | .encReset => none
  | .addMessage _ => none
  | .finalize => none
  | .encCmdReserved => none
  | .addBatch _ => none
  | .encodeMessages _ => none
  | .decodeFirstMessage _ => none
  | .feedAll _ => none
  | .crcInit => none
  | .crcUpdate _ _ => none
  | .crcFinalize _ => none

/-- The request of ADD_MESSAGE: code 0b01 and the 5 wire bytes (R105, R151). -/
def addMessageRequest (m : Message) : Request := .command 0b01#2 m.bytes

/-- The request of a command of a trace (R105). -/
def EncCommand.request : EncCommand → Request
  | .reset => .command 0b00#2 []
  | .addMessage m => addMessageRequest m
  | .finalize => .command 0b10#2 []

/-- The encoder: the requests that stand for an instruction. A FEED row is its input byte, a command its code and operand
(R105); a pseudo-operation is its expansion (R110, R153, R159; the power-on start of decode_first_message is no request, log
12); a CRC primitive has no external encoding. -/
def encode (cfg : Config) : Instr → List Request
  | .feedAwaitStart => [.byte cfg.startByte]
  | .feedAwaitOther b => [.byte b]
  | .feedFrameStart => [.byte cfg.startByte]
  | .feedFrameEscape => [.byte cfg.escapeByte]
  | .feedFrameEnd => [.byte cfg.endByte]
  | .feedFrameData b => [.byte b]
  | .feedFrameEscdata b => [.byte b]
  | .feedFrameOverrun b => [.byte b]
  | .decReset => [.decReset]
  | .encReset => [.command 0b00#2 []]
  | .addMessage m => [addMessageRequest m]
  | .finalize => [.command 0b10#2 []]
  | .encCmdReserved => [.command 0b11#2 []]
  | .addBatch ms => ms.map addMessageRequest
  | .encodeMessages ms => .command 0b00#2 [] :: ms.map addMessageRequest ++ [.command 0b10#2 []]
  | .decodeFirstMessage bytes => bytes.map .byte
  | .feedAll bytes => bytes.map .byte
  | .crcInit => []
  | .crcUpdate _ _ => []
  | .crcFinalize _ => []

/-- The contexts a FEED row applies in (opcode_table.json "context"); every other instruction applies in any. -/
def Instr.appliesIn (ctx : DecContext) : Instr → Bool
  | .feedAwaitStart => ctx.state == .awaitingStart
  | .feedAwaitOther _ => ctx.state == .awaitingStart
  | .feedFrameStart => ctx.state == .inFrame
  | .feedFrameEscape => ctx.state == .inFrame
  | .feedFrameEnd => ctx.state == .inFrame
  | .feedFrameData _ => ctx.state == .inFrame && !ctx.esc && !ctx.full
  | .feedFrameEscdata _ => ctx.state == .inFrame && ctx.esc && !ctx.full
  | .feedFrameOverrun _ => ctx.state == .inFrame && ctx.full
  | .decReset => true
  | .encReset => true
  | .addMessage _ => true
  | .finalize => true
  | .encCmdReserved => true
  | .addBatch _ => true
  | .encodeMessages _ => true
  | .decodeFirstMessage _ => true
  | .feedAll _ => true
  | .crcInit => true
  | .crcUpdate _ _ => true
  | .crcFinalize _ => true

/-! ### Words as the opcode table numbers them (log 15, log 18) -/

/-- The request of a word of the opcode table: 8 bits are a decoder input byte, 2 bits an encoder command code, 42 bits (48 in
whole bytes) the code and 40 operand bits of ADD_MESSAGE's pattern; a code 0b01 alone stands for an operand of zeros. No port
takes another width: it becomes a command without its operand, which `decode` rejects. -/
def tableRequest (nbits w : Nat) : Request :=
  if nbits = 8 then .byte (BitVec.ofNat 8 w)
  else if nbits = 2 then
    .command (BitVec.ofNat 2 w) (if BitVec.ofNat 2 w = 0b01#2 then bytesOfBits40 0 else [])
  else if nbits = 42 ∨ nbits = 48 then
    .command (BitVec.ofNat 2 (w >>> 40))
      (if BitVec.ofNat 2 (w >>> 40) = 0b01#2 then bytesOfBits40 w else [])
  else .command 0b01#2 []

/-- The context an input byte of the opcode table is read in: END and ESCAPE have a row of their own only in IN_FRAME; every
other byte is read in AWAITING_START. -/
def tableContext (b : Byte) : DecContext :=
  if b = Config.reference.endByte ∨ b = Config.reference.escapeByte then
    { state := .inFrame, esc := false, full := false }
  else { state := .awaitingStart, esc := false, full := false }

/-- The context of a request of the opcode table; one that is no input byte is read alike in every context. -/
def tableRequestContext (r : Request) : DecContext :=
  match r with
  | .byte b => tableContext b
  | .decReset => { state := .awaitingStart, esc := false, full := false }
  | .command _ _ => { state := .awaitingStart, esc := false, full := false }

/-- The instruction read from a word of the opcode table, under the reference configuration the table's numbers are for. -/
def decodeTableWord (nbits w : Nat) : Option Instr :=
  match decode Config.reference (tableRequestContext (tableRequest nbits w)) (tableRequest nbits w) with
  | .ok i => some i
  | .error _ => none

end Sys2Proof
end

