-- ==== Sys2Proof/Machine/Crc.lean ====
section
/-! DEFINITION. The CRC-8 unit: the three pure functions of the Checksum abstraction (spec/40_checksum.md), as the parametrised
engine of R133 to R136. -/

namespace Sys2Proof.Machine

/-- `reflect8(x)`: the 8 bits of `x` in reverse order (R133). -/
def reflect8 (x : Byte) : Byte :=
  BitVec.ofNat 8 ((List.range 8).foldl (fun n i => 2 * n + (x.getLsbD i).toNat) 0)

/-- One shift of the register: the bit shifted out of position 7 selects the XOR with the generator (R135). -/
def crcShift (poly acc : Byte) : Byte :=
  if acc.msb then (acc <<< 1) ^^^ poly else acc <<< 1

/-- `n` shifts. -/
def crcShifts (poly : Byte) : Nat → Byte → Byte
  | 0, acc => acc
  | n + 1, acc => crcShifts poly n (crcShift poly acc)

/-- One byte folded into the accumulator: XOR, then 8 shifts (R135). -/
def crcByte (cfg : Config) (acc b : Byte) : Byte :=
  crcShifts cfg.crcPoly 8 (acc ^^^ (if cfg.crcRefin then reflect8 b else b))

/-- `crc_init()` (R134). -/
def crcInit (cfg : Config) : Byte := cfg.crcInitVal

/-- `crc_update(acc, s)`: the bytes in ascending index order (R135). -/
def crcUpdate (cfg : Config) (acc : Byte) (s : List Byte) : Byte := s.foldl (crcByte cfg) acc

/-- `crc_finalize(acc)` (R136). -/
def crcFinalize (cfg : Config) (acc : Byte) : Byte :=
  (if cfg.crcRefout then reflect8 acc else acc) ^^^ cfg.crcXorout

/-- `crc8(s)` (R137). -/
def crc8 (cfg : Config) (s : List Byte) : Byte := crcFinalize cfg (crcUpdate cfg (crcInit cfg) s)

end Sys2Proof.Machine
end

