-- ==== Sys2Proof/Machine/State.lean ====
section
/-! DEFINITION. The state of the machine: one Encoder instance and one Decoder instance with every register of spec/10_state.md
R20, the configuration they were built with, the requests not yet served, and what the last step returned. -/

namespace Sys2Proof.Machine

/-! ### Outputs of an operation (30_encoding.md R106, R107) -/

/-- The reason of an `invalid_message` event (R107). -/
inductive Reason where
  | lengthError
  | checksumError
  | capacityOverrun
  deriving DecidableEq, Repr

/-- A DecodeEvent, one per FEED (R106); `valid_message` carries a Message when the frame's COUNT is at least 1. -/
inductive DecodeEvent where
  | waiting
  | frameStarted
  | frameRestarted
  | byteAppended
  | escapePending
  | validMessage (m : Option Message)
  | invalidMessage (r : Reason)
  deriving DecidableEq, Repr

/-- An encoder status, one per command (R107). -/
inductive EncStatus where
  | ok
  | capacityOverrun
  deriving DecidableEq, Repr

/-- What a step returns to the owner. The spec does not retain it (R38); the field of State that holds it is the model's own
(log 4). -/
inductive Response where
  /-- nothing is returned: before the first step, by DEC_RESET (R180), and while waiting for a request -/
  | nothing
  /-- FEED (R106) -/
  | event (e : DecodeEvent)
  /-- ENC_RESET, ADD_MESSAGE (R105) -/
  | status (st : EncStatus)
  /-- FINALIZE: status and (bytes, length) (R154, R158) -/
  | frame (st : EncStatus) (bytes : List Byte) (length : Nat)
  /-- ADD_BATCH: one status per message (R153) -/
  | statuses (l : List EncStatus)
  /-- encode: the byte sequence it denotes, none where it is not defined (R159, log 11) -/
  | encoded (bytes : Option (List Byte))
  /-- decode_first_message: the Message of the first valid_message event, if any (R110) -/
  | firstMessage (m : Option Message)
  /-- feed_all: one event per byte (R110) -/
  | events (l : List DecodeEvent)
  /-- CRC_INIT, CRC_UPDATE (R134, R135) -/
  | accumulator (acc : Byte)
  /-- CRC_FINALIZE (R136) -/
  | checksum (b : Byte)
  deriving DecidableEq, Repr

/-! ### The instances -/

/-- An Encoder instance (10_state.md R20 to R24). Buffers are their meaningful prefixes (log 8). -/
structure Enc where
  /-- `ENC.PEND`, the raw bytes of the pending messages (R21) -/
  pend : List Byte
  /-- `ENC.COUNT`, the pending message count (R22) -/
  count : Nat
  /-- `ENC.ACC`, the running checksum accumulator (R23) -/
  acc : Byte
  /-- `ENC.OUT`, the last finalised escaped frame (R24) -/
  out : List Byte
  /-- `ENC.OUT_LEN`, its length; 0 while there is none (R24) -/
  outLen : Nat
  deriving DecidableEq, Repr

/-- A Decoder instance (10_state.md R20, R26 to R29). -/
structure Dec where
  /-- `DEC.STATE` (R26) -/
  state : FrameState
  /-- `DEC.ESC`, the sub-flag ESCAPE_PENDING (R27) -/
  esc : Bool
  /-- `DEC.BUF`, the unescaped bytes of the frame in progress (R28) -/
  buf : List Byte
  /-- `DEC.LEN`, its cursor (R28) -/
  len : Nat
  /-- `DEC.LAST_MSG` with `DEC.LAST_VALID`: none while LAST_VALID is 0 (R29) -/
  last : Option Message
  deriving DecidableEq, Repr

/-- The result of a run of an encoder (70_reset_and_hazards.md R274). -/
structure EncRun where
  /-- the status list, one status per command -/
  statuses : List EncStatus
  /-- the sequence of (`ENC.OUT`, `ENC.OUT_LEN`) values after each FINALIZE -/
  frames : List (List Byte × Nat)
  /-- the final state -/
  final : Enc
  deriving DecidableEq, Repr

/-- The result of a run of a decoder (R274). -/
structure DecRun where
  /-- the event list, one event per byte -/
  events : List DecodeEvent
  /-- the final state -/
  final : Dec
  deriving DecidableEq, Repr

/-- Why the machine would stop with a fault. There is no such reason: "no error is fatal to the Codec itself" (60_exceptions.md
R230, R241); the four errors are effects of the operation that detects them. -/
inductive Fault where
  deriving DecidableEq, Repr

/-- Why the machine has no step. -/
inductive Refusal where
  /-- Raised by `exec` for an instruction without a meaning; no arm does. Safe: the machine stops. -/
  | notModelled (mnemonic : String)
  /-- Raised by `execEncCmdReserved`: the command code 0b11 selects no command, "a model refuses it (no step)" (R105, 93 K9).
  Safe: the spec gives no effect (log 6). -/
  | reservedCommand
  /-- Raised by `step` for an encoder command with the wrong number of operand bytes. Safe: it is no command of R105 (log 7). -/
  | malformedCommand
  /-- Raised by the meaning of a FEED row in a context that does not select the row (R181). Safe: no step does it (log 5). -/
  | rowNotSelected
  deriving DecidableEq, Repr

/-- The whole machine. -/
structure State where
  /-- CFG, the configuration of both instances (00_scope.md section 4); written by no operation (R34, log 1) -/
  cfg : Config
  /-- the Encoder instance -/
  enc : Enc
  /-- the Decoder instance -/
  dec : Dec
  /-- the requests the owner has issued and the block has not served, oldest first (log 3) -/
  input : List Request
  /-- what the last step returned (log 4) -/
  resp : Response
  deriving DecidableEq, Repr

/-- An Encoder instance after its power-on reset (70_reset_and_hazards.md R260). -/
def Enc.powerOn (cfg : Config) : Enc :=
  { pend := [], count := 0, acc := Sys2Proof.Machine.crcInit cfg, out := [], outLen := 0 }

/-- A Decoder instance after its power-on reset (R260). -/
def Dec.powerOn : Dec :=
  { state := .awaitingStart, esc := false, buf := [], len := 0, last := none }

/-- The machine right after power-on, built with a given configuration (R260). -/
def State.powerOn (cfg : Config) : State :=
  { cfg := cfg, enc := Enc.powerOn cfg, dec := Dec.powerOn, input := [], resp := .nothing }

/-- The machine right after power-on, with the reference configuration (R260, log 1). -/
def State.reset : State := State.powerOn Config.reference

end Sys2Proof.Machine
end

