-- ==== Sys2Proof/Machine/Flags.lean ====
section
/-! DEFINITION. The flags of the block (10_state.md R33) and the numeric codes of its outputs (30_encoding.md R106, R107). -/

namespace Sys2Proof.Machine

/-- `DEC.LAST_VALID` (R29). -/
def Dec.lastValid (d : Dec) : Bool := d.last.isSome

/-- The derived condition `ENC.OUT_LEN != 0`: a finalised frame is available (R33). -/
def Enc.frameAvailable (e : Enc) : Bool := e.outLen != 0

/-- What of the decoder's state selects the row of a FEED (R181). The buffer counts as full from DEC_CAP upward (log 9). -/
def Dec.context (cfg : Config) (d : Dec) : DecContext :=
  { state := d.state, esc := d.esc, full := decide (cfg.decCap ≤ d.len) }

/-- The 3-bit event code (R106). -/
def eventCode : DecodeEvent → BitVec 3
  | .waiting => 0#3
  | .frameStarted => 1#3
  | .frameRestarted => 2#3
  | .byteAppended => 3#3
  | .escapePending => 4#3
  | .validMessage _ => 5#3
  | .invalidMessage _ => 6#3

/-- The 2-bit reason code: 0 when the event is not `invalid_message` (R107). -/
def reasonCode : DecodeEvent → BitVec 2
  | .waiting => 0#2
  | .frameStarted => 0#2
  | .frameRestarted => 0#2
  | .byteAppended => 0#2
  | .escapePending => 0#2
  | .validMessage _ => 0#2
  | .invalidMessage .lengthError => 1#2
  | .invalidMessage .checksumError => 2#2
  | .invalidMessage .capacityOverrun => 3#2

/-- The encoder status code (R107). -/
def statusCode : EncStatus → BitVec 1
  | .ok => 0#1
  | .capacityOverrun => 1#1

end Sys2Proof.Machine
end

