-- ==== Sys2Proof/Machine/Operands.lean ====
section
/-! DEFINITION. Operand forms: the fields a decoder takes from a buffered frame (30_encoding.md R108), the meaningful parts of the
buffers, and the numeric spelling of a value that the spec's examples use (R10). -/

namespace Sys2Proof.Machine

/-- The buffered frame seen from its tail: (`count`, `chk`), the second-to-last and the last byte; none when fewer than two
bytes are buffered (R108, 43_validation.md R211, R212). -/
def frameTail (f : List Byte) : Option (Byte × Byte) :=
  match f.reverse with
  | chk :: count :: _ => some (count, chk)
  | _ => none

/-- `F[0..4]` as a Message: command, then the four value bytes in order (R108, R214); none when there are fewer than five. -/
def firstMessageOf (f : List Byte) : Option Message := messageOfBytes (f.take 5)

/-- `PEND`, the meaningful part `ENC.PEND[0 .. 5*ENC.COUNT - 1]` (R21). -/
def Enc.pending (e : Enc) : List Byte := e.pend.take (5 * e.count)

/-- What the owner can read of the output: `ENC.OUT[0 .. ENC.OUT_LEN - 1]` (R24, R158). -/
def Enc.readOut (e : Enc) : List Byte := e.out.take e.outLen

/-- The buffered frame `DEC.BUF[0 .. DEC.LEN - 1]` (R28, R210). -/
def Dec.frame (d : Dec) : List Byte := d.buf.take d.len

/-- The 40-bit quantity a Message is on the block's interface: its 5 wire bytes in order, the first most significant (R90). -/
def messageBits (m : Message) : BitVec 40 :=
  m.command ++ m.value0 ++ m.value1 ++ m.value2 ++ m.value3

/-- A 32-bit pattern as a Message's value bytes in the order VALUE_ORDER says; used by the spec's examples only (R10, log 19). -/
def messageOfValue (cfg : Config) (command : Byte) (v : BitVec 32) : Message :=
  match cfg.valueOrder with
  | .little =>
    ⟨command, v.extractLsb' 0 8, v.extractLsb' 8 8, v.extractLsb' 16 8, v.extractLsb' 24 8⟩
  | .big =>
    ⟨command, v.extractLsb' 24 8, v.extractLsb' 16 8, v.extractLsb' 8 8, v.extractLsb' 0 8⟩

end Sys2Proof.Machine
end

