-- ==== Sys2Proof/Machine/Ops.lean ====
section
/-! DEFINITION. The shared operations: buffer access, stuffing, the working-state resets, the error entries, and frame
validation. -/

namespace Sys2Proof.Machine

/-! ### Buffers (20_memory.md R70, R71) -/

/-- `MemRead(buf, i, n)` over a buffer given by its meaningful prefix: defined only within it (R70). -/
def memRead (buf : List Byte) (i n : Nat) : Option (List Byte) :=
  if i + n ≤ buf.length then some ((buf.drop i).take n) else none

/-- `MemWrite(buf, i, len(v), v)`: the bounds test comes before any byte is written; none is the capacity overrun (R71). -/
def memWrite (cap : Nat) (buf : List Byte) (i : Nat) (v : List Byte) : Option (List Byte) :=
  if i + v.length ≤ cap then some (buf.take i ++ v ++ buf.drop (i + v.length)) else none

/-- The canonical form of the three buffers: each is exactly as long as its cursor says and within its capacity (R21, R24, R28,
R60). -/
abbrev Memory.wf (s : State) : Prop :=
  s.enc.count ≤ s.cfg.encMaxMsgs ∧ s.enc.pend.length = 5 * s.enc.count ∧
    s.enc.out.length = s.enc.outLen ∧ s.enc.outLen ≤ s.cfg.encOutCap ∧
    s.dec.buf.length = s.dec.len ∧ s.dec.len ≤ s.cfg.decCap

/-! ### Stuffing (30_encoding.md R95 to R99) -/

/-- `is_reserved(x)` (R95). -/
def isReserved (cfg : Config) (x : Byte) : Bool :=
  x == cfg.startByte || x == cfg.endByte || x == cfg.escapeByte

/-- `stuff(x)` (R95). -/
def stuff (cfg : Config) (x : Byte) : List Byte :=
  if isReserved cfg x then [cfg.escapeByte, complement x] else [x]

/-- `stuff_all(s)` (R95). -/
def stuffAll (cfg : Config) : List Byte → List Byte
  | [] => []
  | x :: s => stuff cfg x ++ stuffAll cfg s

/-- Unstuffing with an escape pending or not: an ESCAPE is dropped, the next other byte is complemented (R99). -/
def unstuffFrom (cfg : Config) : Bool → List Byte → List Byte
  | _, [] => []
  | esc, b :: s =>
    if b = cfg.escapeByte then unstuffFrom cfg true s
    else (if esc then complement b else b) :: unstuffFrom cfg false s

/-- `unstuff(s)` (R99). -/
def unstuff (cfg : Config) (s : List Byte) : List Byte := unstuffFrom cfg false s

/-- The escaped frame around escape-eligible bytes: START and END literal, everything between stuffed (R94, R96). -/
def escapedFrame (cfg : Config) (raw : List Byte) : List Byte :=
  cfg.startByte :: (stuffAll cfg raw ++ [cfg.endByte])

/-- A message count as the frame's COUNT byte (R91, R154; `COUNT` never exceeds 255, R22). -/
def countByte (n : Nat) : Byte := BitVec.ofNat 8 n

/-! ### Resets and error entries -/

/-- The working-state reset of the encoder (R150, R156, R261): OUT and OUT_LEN are kept. -/
def Enc.workReset (cfg : Config) (e : Enc) : Enc :=
  { e with pend := [], count := 0, acc := Sys2Proof.Machine.crcInit cfg }

/-- The working-state reset of the decoder (R180, R217, R261): the last good message is kept. -/
def Dec.workReset (d : Dec) : Dec :=
  { d with state := .awaitingStart, esc := false, buf := [], len := 0 }

/-- The decoder error entry, one for every error (60_exceptions.md R238): the frame is discarded, the decoder returns to
AWAITING_START, the event carries the reason. There is no return operation (R240). -/
def Dec.raiseError (reason : Reason) (d : Dec) : Dec × DecodeEvent :=
  (d.workReset, .invalidMessage reason)

/-- The encoder error entry (R239): no state change, the status says so. -/
def Enc.raiseOverrun (e : Enc) : Enc × EncStatus := (e, .capacityOverrun)

/-! ### Frame validation (43_validation.md) -/

/-- `validate(F)` (R220): too short, then the length equation in the naturals (R218), then the checksum; a valid frame with
COUNT at least 1 gives its first message, one with COUNT 0 none (R214, R215). -/
def validate (cfg : Config) (f : List Byte) : DecodeEvent × Option Message :=
  match frameTail f with
  | none => (.invalidMessage .lengthError, none)
  | some (count, chk) =>
    if count.toNat * 5 + 2 ≠ f.length then (.invalidMessage .lengthError, none)
    else if crc8 cfg f.dropLast ≠ chk then (.invalidMessage .checksumError, none)
    else if 1 ≤ count.toNat then (.validMessage (firstMessageOf f), firstMessageOf f)
    else (.validMessage none, none)

/-! ### Completing a step -/

/-- An operation of the decoder instance: the encoder, the configuration and the pending requests are untouched (R20). -/
def State.completeDec (s : State) (d : Dec) (r : Response) : State := { s with dec := d, resp := r }

/-- An operation of the encoder instance: the decoder, the configuration and the pending requests are untouched (R20). -/
def State.completeEnc (s : State) (e : Enc) (r : Response) : State := { s with enc := e, resp := r }

/-- A pure operation: nothing but the returned value (R130). -/
def State.respond (s : State) (r : Response) : State := { s with resp := r }

end Sys2Proof.Machine
end

