-- ==== Sys2Proof/Machine/CrcUnit.lean ====
section
/-! DEFINITION. The CRC primitives as instructions (spec/40_checksum.md R134 to R136): pure functions of their operands, whose
value is returned and which change no instance (R130, log 13). -/

namespace Sys2Proof.Machine

/-- CRC_INIT (R134). -/
def execCrcInit (s : State) : Host.Outcome State Fault Refusal :=
  .next (s.respond (.accumulator (Sys2Proof.Machine.crcInit s.cfg)))

/-- CRC_UPDATE (R135). -/
def execCrcUpdate (acc : Byte) (bytes : List Byte) (s : State) : Host.Outcome State Fault Refusal :=
  .next (s.respond (.accumulator (Sys2Proof.Machine.crcUpdate s.cfg acc bytes)))

/-- CRC_FINALIZE (R136). -/
def execCrcFinalize (acc : Byte) (s : State) : Host.Outcome State Fault Refusal :=
  .next (s.respond (.checksum (Sys2Proof.Machine.crcFinalize s.cfg acc)))

end Sys2Proof.Machine
end

