-- ==== Sys2Proof/Machine/Decoder.lean ====
section
/-! DEFINITION. The Decoder: the rows of FEED and DEC_RESET (spec/42_decoder.md R180 to R193). -/

namespace Sys2Proof.Machine

/-! ### The rows, as functions of the decoder -/

/-- R182: reset the working buffer, enter IN_FRAME. -/
def Dec.awaitStart (d : Dec) : Dec × DecodeEvent :=
  ({ d with state := .inFrame, esc := false, buf := [], len := 0 }, .frameStarted)

/-- R183: ignore. -/
def Dec.awaitOther (d : Dec) : Dec × DecodeEvent := (d, .waiting)

/-- R184: the frame in progress is discarded, unvalidated. -/
def Dec.frameStart (d : Dec) : Dec × DecodeEvent :=
  ({ d with state := .inFrame, esc := false, buf := [], len := 0 }, .frameRestarted)

/-- R185: set ESCAPE_PENDING, no buffer write. -/
def Dec.frameEscape (d : Dec) : Dec × DecodeEvent := ({ d with esc := true }, .escapePending)

/-- R186, R217, R219: validate, latch a message if there is one, reset the working state whatever the verdict. -/
def Dec.frameEnd (cfg : Config) (d : Dec) : Dec × DecodeEvent :=
  let verdict := validate cfg d.frame
  match verdict.2 with
  | some m => ({ d.workReset with last := some m }, verdict.1)
  | none => (d.workReset, verdict.1)

/-- Append one byte at the cursor (00_scope.md section 6 `append`); the bounds test that fails is the overrun (R71). -/
def Dec.append (cfg : Config) (d : Dec) (x : Byte) : Dec × DecodeEvent :=
  match memWrite cfg.decCap d.buf d.len [x] with
  | some buf => ({ d with buf := buf, len := d.len + 1 }, .byteAppended)
  | none => d.raiseError .capacityOverrun

/-- R187: append `b`. -/
def Dec.frameData (cfg : Config) (b : Byte) (d : Dec) : Dec × DecodeEvent := d.append cfg b

/-- R188: append `255 - b`, clear ESCAPE_PENDING. -/
def Dec.frameEscdata (cfg : Config) (b : Byte) (d : Dec) : Dec × DecodeEvent :=
  Dec.append cfg { d with esc := false } (complement b)

/-- R189: nothing is written; the decoder error entry with the reason capacity_overrun. -/
def Dec.frameOverrun (d : Dec) : Dec × DecodeEvent := d.raiseError .capacityOverrun

/-- `FEED(b)`: the row R181 selects. -/
def Dec.feed (cfg : Config) (d : Dec) (b : Byte) : Dec × DecodeEvent :=
  match selectRow cfg (d.context cfg) b with
  | .awaitStart => d.awaitStart
  | .awaitOther => d.awaitOther
  | .frameStart => d.frameStart
  | .frameEscape => d.frameEscape
  | .frameEnd => d.frameEnd cfg
  | .frameData => d.frameData cfg b
  | .frameEscdata => d.frameEscdata cfg b
  | .frameOverrun => d.frameOverrun

/-- `FEED` folded over a byte sequence from the left, with the list of events (R192, R110). -/
def Dec.feedAll (cfg : Config) (d : Dec) : List Byte → Dec × List DecodeEvent
  | [] => (d, [])
  | b :: s =>
    let first := d.feed cfg b
    let rest := Dec.feedAll cfg first.1 s
    (rest.1, first.2 :: rest.2)

/-! ### The meanings -/

/-- A row as an instruction: it applies where R181 selects it for its byte, and nowhere else (log 5). -/
def execRow (row : FeedRow) (b : Byte) (result : Dec × DecodeEvent) (s : State) :
    Host.Outcome State Fault Refusal :=
  if selectRow s.cfg (s.dec.context s.cfg) b = row then
    .next (s.completeDec result.1 (.event result.2))
  else .refused .rowNotSelected

/-- FEED.AWAIT.START (R182). -/
def execFeedAwaitStart (s : State) : Host.Outcome State Fault Refusal :=
  execRow .awaitStart s.cfg.startByte s.dec.awaitStart s

/-- FEED.AWAIT.OTHER (R183). -/
def execFeedAwaitOther (b : Byte) (s : State) : Host.Outcome State Fault Refusal :=
  execRow .awaitOther b s.dec.awaitOther s

/-- FEED.FRAME.START (R184). -/
def execFeedFrameStart (s : State) : Host.Outcome State Fault Refusal :=
  execRow .frameStart s.cfg.startByte s.dec.frameStart s

/-- FEED.FRAME.ESCAPE (R185). -/
def execFeedFrameEscape (s : State) : Host.Outcome State Fault Refusal :=
  execRow .frameEscape s.cfg.escapeByte s.dec.frameEscape s

/-- FEED.FRAME.END (R186). -/
def execFeedFrameEnd (s : State) : Host.Outcome State Fault Refusal :=
  execRow .frameEnd s.cfg.endByte (s.dec.frameEnd s.cfg) s

/-- FEED.FRAME.DATA (R187). -/
def execFeedFrameData (b : Byte) (s : State) : Host.Outcome State Fault Refusal :=
  execRow .frameData b (s.dec.frameData s.cfg b) s

/-- FEED.FRAME.ESCDATA (R188). -/
def execFeedFrameEscdata (b : Byte) (s : State) : Host.Outcome State Fault Refusal :=
  execRow .frameEscdata b (s.dec.frameEscdata s.cfg b) s

/-- FEED.FRAME.OVERRUN (R189). -/
def execFeedFrameOverrun (b : Byte) (s : State) : Host.Outcome State Fault Refusal :=
  execRow .frameOverrun b s.dec.frameOverrun s

/-- DEC_RESET (R180): no event is emitted. -/
def execDecReset (s : State) : Host.Outcome State Fault Refusal :=
  .next (s.completeDec s.dec.workReset .nothing)

end Sys2Proof.Machine
end

