-- ==== Sys2Proof/Machine/Encoder.lean ====
section
/-! DEFINITION. The Encoder: ENC_RESET, ADD_MESSAGE, FINALIZE and the reserved command code (spec/41_encoder.md R150 to R158,
spec/30_encoding.md R105). -/

namespace Sys2Proof.Machine

/-! ### The commands, as functions of the encoder -/

/-- ADD_MESSAGE (R151, R152): append the 5 raw bytes at index 5 * COUNT, fold them, count them; where the append would pass the
capacity, the encoder error entry. -/
def Enc.addMessage (cfg : Config) (e : Enc) (m : Message) : Enc × EncStatus :=
  match memWrite (5 * cfg.encMaxMsgs) e.pend (5 * e.count) m.bytes with
  | some pend =>
    ({ e with pend := pend, acc := Sys2Proof.Machine.crcUpdate cfg e.acc m.bytes, count := e.count + 1 }, .ok)
  | none => e.raiseOverrun

/-- ADD_MESSAGE for each message in order, with the list of statuses (R153). -/
def Enc.addBatch (cfg : Config) (e : Enc) : List Message → Enc × List EncStatus
  | [] => (e, [])
  | m :: ms =>
    let first := e.addMessage cfg m
    let rest := Enc.addBatch cfg first.1 ms
    (rest.1, first.2 :: rest.2)

/-- The checksum byte of FINALIZE: COUNT folded into ACC, then finalised (R154). -/
def Enc.checksum (cfg : Config) (e : Enc) : Byte :=
  Sys2Proof.Machine.crcFinalize cfg (Sys2Proof.Machine.crcUpdate cfg e.acc [countByte e.count])

/-- The escaped frame FINALIZE builds: PEND, COUNT and the checksum, all stuffed (R154, R157). -/
def Enc.buildFrame (cfg : Config) (e : Enc) : List Byte :=
  escapedFrame cfg (e.pending ++ [countByte e.count] ++ [e.checksum cfg])

/-- FINALIZE (R154, R156): write OUT and OUT_LEN, then the working-state reset. What OUT held beyond the new length has no
value any more (R24), so the new frame replaces it whole. -/
def Enc.finalize (cfg : Config) (e : Enc) : Enc :=
  Enc.workReset cfg { e with out := e.buildFrame cfg, outLen := (e.buildFrame cfg).length }

/-! ### The meanings -/

/-- ENC_RESET (R150). -/
def execEncReset (s : State) : Host.Outcome State Fault Refusal :=
  .next (s.completeEnc (s.enc.workReset s.cfg) (.status .ok))

/-- ADD_MESSAGE (R151, R152). -/
def execAddMessage (m : Message) (s : State) : Host.Outcome State Fault Refusal :=
  .next (s.completeEnc (s.enc.addMessage s.cfg m).1 (.status (s.enc.addMessage s.cfg m).2))

/-- FINALIZE (R154): returns status ok and (ENC.OUT[0 .. ENC.OUT_LEN-1], ENC.OUT_LEN). -/
def execFinalize (s : State) : Host.Outcome State Fault Refusal :=
  .next (s.completeEnc (s.enc.finalize s.cfg)
    (.frame .ok (s.enc.finalize s.cfg).readOut (s.enc.finalize s.cfg).outLen))

/-- ENC_CMD_RESERVED: "the code selects no command; a model refuses it (no step)" (R105, 93 K9, log 6). -/
def execEncCmdReserved (_ : State) : Host.Outcome State Fault Refusal := .refused .reservedCommand

end Sys2Proof.Machine
end

