-- ==== Sys2Proof/Machine/Pseudo.lean ====
section
/-! DEFINITION. The pseudo-operations (spec/30_encoding.md R110, spec/41_encoder.md R153, R159): each is its expansion run in one
go (log 10). -/

namespace Sys2Proof.Machine

/-- The Message of the first `valid_message` event of a list, if any (R110). A `valid_message` with no Message is the first
such event too, and then there is none. -/
def firstValidMessage : List DecodeEvent → Option Message
  | [] => none
  | .validMessage m :: _ => m
  | .waiting :: es => firstValidMessage es
  | .frameStarted :: es => firstValidMessage es
  | .frameRestarted :: es => firstValidMessage es
  | .byteAppended :: es => firstValidMessage es
  | .escapePending :: es => firstValidMessage es
  | .invalidMessage _ :: es => firstValidMessage es

/-- ENC_RESET; ADD_BATCH; FINALIZE as a function of the encoder (R159). -/
def Enc.encode (cfg : Config) (e : Enc) (ms : List Message) : Enc :=
  Enc.finalize cfg (Enc.addBatch cfg (e.workReset cfg) ms).1

/-- ADD_BATCH (R153). -/
def execAddBatch (ms : List Message) (s : State) : Host.Outcome State Fault Refusal :=
  .next (s.completeEnc (Enc.addBatch s.cfg s.enc ms).1 (.statuses (Enc.addBatch s.cfg s.enc ms).2))

/-- encode (R159): the expansion runs whatever the number of messages; a byte sequence is denoted only up to ENC_MAX_MSGS
messages (log 11). -/
def execEncodeMessages (ms : List Message) (s : State) : Host.Outcome State Fault Refusal :=
  .next (s.completeEnc (Enc.encode s.cfg s.enc ms)
    (.encoded (if ms.length ≤ s.cfg.encMaxMsgs then some (Enc.encode s.cfg s.enc ms).readOut else none)))

/-- decode_first_message (R110): a decoder in its power-on state is fed each byte (log 12). -/
def execDecodeFirstMessage (bytes : List Byte) (s : State) : Host.Outcome State Fault Refusal :=
  .next (s.completeDec (Dec.feedAll s.cfg Dec.powerOn bytes).1
    (.firstMessage (firstValidMessage (Dec.feedAll s.cfg Dec.powerOn bytes).2)))

/-- feed_all (R110). -/
def execFeedAll (bytes : List Byte) (s : State) : Host.Outcome State Fault Refusal :=
  .next (s.completeDec (Dec.feedAll s.cfg s.dec bytes).1 (.events (Dec.feedAll s.cfg s.dec bytes).2))

end Sys2Proof.Machine
end

