-- ==== Sys2Proof/Machine/Dispatch.lean ====
section
/-! DEFINITION. The dispatch of instructions to their meanings, one arm per row of spec/opcode_table.json. -/

namespace Sys2Proof.Machine

def exec (i : Instr) (s : State) : Host.Outcome State Fault Refusal :=
  match i with
  | .feedAwaitStart => Sys2Proof.Machine.execFeedAwaitStart s
  | .feedAwaitOther b => Sys2Proof.Machine.execFeedAwaitOther b s
  | .feedFrameStart => Sys2Proof.Machine.execFeedFrameStart s
  | .feedFrameEscape => Sys2Proof.Machine.execFeedFrameEscape s
  | .feedFrameEnd => Sys2Proof.Machine.execFeedFrameEnd s
  | .feedFrameData b => Sys2Proof.Machine.execFeedFrameData b s
  | .feedFrameEscdata b => Sys2Proof.Machine.execFeedFrameEscdata b s
  | .feedFrameOverrun b => Sys2Proof.Machine.execFeedFrameOverrun b s
  | .decReset => Sys2Proof.Machine.execDecReset s
  | .encReset => Sys2Proof.Machine.execEncReset s
  | .addMessage m => Sys2Proof.Machine.execAddMessage m s
  | .finalize => Sys2Proof.Machine.execFinalize s
  | .encCmdReserved => Sys2Proof.Machine.execEncCmdReserved s
  | .addBatch ms => Sys2Proof.Machine.execAddBatch ms s
  | .encodeMessages ms => Sys2Proof.Machine.execEncodeMessages ms s
  | .decodeFirstMessage bytes => Sys2Proof.Machine.execDecodeFirstMessage bytes s
  | .feedAll bytes => Sys2Proof.Machine.execFeedAll bytes s
  | .crcInit => Sys2Proof.Machine.execCrcInit s
  | .crcUpdate acc bytes => Sys2Proof.Machine.execCrcUpdate acc bytes s
  | .crcFinalize acc => Sys2Proof.Machine.execCrcFinalize acc s

end Sys2Proof.Machine
end

