-- ==== Sys2Proof/Machine/Fetch.lean ====
section
/-! DEFINITION. Taking the next request and reading it as an instruction; placing a word of the opcode table as the next request
(log 3, log 15, log 16). -/

namespace Sys2Proof.Machine

/-- No request is pending: the block waits, unchanged, and returns nothing (R274, log 16). -/
def State.idle (s : State) : State := { s with resp := .nothing }

/-- The oldest pending request, taken from the list and read in the decoder's present context (R73, R181): none when nothing is
pending, a refusal when the request is no instruction. -/
def fetch (s : State) : Option (Except Refusal (Instr × State)) :=
  match s.input with
  | [] => none
  | r :: rest =>
    match decode s.cfg (s.dec.context s.cfg) r with
    | .ok i => some (.ok (i, { s with input := rest }))
    | .error _ => some (.error .malformedCommand)

/-- The decoder brought into the context a table word is read in, where it is not there already: AWAITING_START by the
working-state reset, IN_FRAME by DEC.STATE alone (log 15). -/
def Dec.enter (ctx : DecContext) (d : Dec) : Dec :=
  if d.state = ctx.state then d
  else
    match ctx.state with
    | .awaitingStart => d.workReset
    | .inFrame => { d with state := .inFrame }

/-- The decoder made ready for a request: only an input byte is read in a context. -/
def Dec.enterFor (r : Request) (d : Dec) : Dec :=
  match r with
  | .byte b => d.enter (tableContext b)
  | .decReset => d
  | .command _ _ => d

/-- The word of an opcode-table row as the very next request, in the context that makes `step` run that row. -/
def placeTableWord (nbits w : Nat) (s : State) : State :=
  { s with
    input := tableRequest nbits w :: s.input
    dec := s.dec.enterFor (tableRequest nbits w) }

end Sys2Proof.Machine
end

