-- ==== Sys2Proof/Machine/Run.lean ====
section
/-! DEFINITION. Runs and their results (spec/70_reset_and_hazards.md R274): an encoder over a command trace, a decoder over a byte
sequence, and the whole machine over requests, with what each step returns. -/

namespace Sys2Proof.Machine

/-! ### A run of one instance -/

/-- One command of a trace: the next encoder and the status (R150, R151, R152, R154). -/
def Enc.command (cfg : Config) (e : Enc) : EncCommand → Enc × EncStatus
  | .reset => (e.workReset cfg, .ok)
  | .addMessage m => e.addMessage cfg m
  | .finalize => (e.finalize cfg, .ok)

/-- What a command adds to the sequence of outputs of a run: (`ENC.OUT`, `ENC.OUT_LEN`) after a FINALIZE (R274). -/
def Enc.outputAfter (e : Enc) : EncCommand → List (List Byte × Nat)
  | .reset => []
  | .addMessage _ => []
  | .finalize => [(e.readOut, e.outLen)]

/-- A run of an encoder: the fold of its commands over a finite command trace (R274). -/
def Enc.run (cfg : Config) (e : Enc) : List EncCommand → EncRun
  | [] => { statuses := [], frames := [], final := e }
  | c :: cs =>
    let first := e.command cfg c
    let rest := Enc.run cfg first.1 cs
    { statuses := first.2 :: rest.statuses, frames := first.1.outputAfter c ++ rest.frames,
      final := rest.final }

/-- A run of a decoder: the fold of FEED over a finite input byte sequence (R274, R192). It ends when the sequence is exhausted, in
whatever state the last byte left. -/
def Dec.run (cfg : Config) (d : Dec) (bytes : List Byte) : DecRun :=
  { events := (Dec.feedAll cfg d bytes).2, final := (Dec.feedAll cfg d bytes).1 }

/-! ### A run of the machine -/

/-- A number of steps, with what each of them returned, in order. -/
def traceSteps : Nat → State → Host.Outcome (State × List Response) Fault Refusal
  | 0, s => .next (s, [])
  | n + 1, s =>
    match Sys2Proof.Machine.step s with
    | .next t =>
      match traceSteps n t with
      | .next u => .next (u.1, t.resp :: u.2)
      | .fault r => .fault r
      | .refused r => .refused r
    | .fault r => .fault r
    | .refused r => .refused r

/-- The machine serves the given requests, and no others, and returns its responses (R73, R274). -/
def serveTrace (s : State) (requests : List Request) :
    Host.Outcome (State × List Response) Fault Refusal :=
  traceSteps requests.length { s with input := requests }

/-- The status in a response to an encoder command. -/
def Response.status? : Response → Option EncStatus
  | .nothing => none
  | .event _ => none
  | .status st => some st
  | .frame st _ _ => some st
  | .statuses _ => none
  | .encoded _ => none
  | .firstMessage _ => none
  | .events _ => none
  | .accumulator _ => none
  | .checksum _ => none

/-- The (bytes, length) in the response to FINALIZE. -/
def Response.frame? : Response → Option (List Byte × Nat)
  | .nothing => none
  | .event _ => none
  | .status _ => none
  | .frame _ bytes length => some (bytes, length)
  | .statuses _ => none
  | .encoded _ => none
  | .firstMessage _ => none
  | .events _ => none
  | .accumulator _ => none
  | .checksum _ => none

/-- The event in the response to a decoder input byte. -/
def Response.event? : Response → Option DecodeEvent
  | .nothing => none
  | .event e => some e
  | .status _ => none
  | .frame _ _ _ => none
  | .statuses _ => none
  | .encoded _ => none
  | .firstMessage _ => none
  | .events _ => none
  | .accumulator _ => none
  | .checksum _ => none

end Sys2Proof.Machine
end

