-- ==== Sys2Proof/Safety.lean ====
section
/-! DEFINITION. What counts as a safe run, in the terms the statements use: the invariants of the two instances that hold between
any two operations (spec/10_state.md R25, R30), and the states a run can reach. -/

namespace Sys2Proof.Machine

/-- The encoder's invariants (R25): the count within its bound, the pending bytes as long as the count says, the accumulator
that of the pending bytes, and an output that is empty or one whole escaped frame. -/
structure Enc.Inv (cfg : Config) (e : Enc) : Prop where
  count_le : e.count ≤ cfg.encMaxMsgs
  pend_length : e.pend.length = 5 * e.count
  acc_eq : e.acc = Sys2Proof.Machine.crcUpdate cfg (Sys2Proof.Machine.crcInit cfg) e.pend
  out_length : e.out.length = e.outLen
  out_shape : e.outLen = 0 ∨
    4 ≤ e.outLen ∧ e.outLen ≤ cfg.encOutCap ∧
      ∃ body : List Byte, e.out = cfg.startByte :: (body ++ [cfg.endByte]) ∧
        cfg.startByte ∉ body ∧ cfg.endByte ∉ body

/-- The decoder's invariants (R30): the cursor within the capacity and as long as the buffered bytes, and a pre-frame state that
is empty. -/
structure Dec.Inv (cfg : Config) (d : Dec) : Prop where
  buf_length : d.buf.length = d.len
  len_le : d.len ≤ cfg.decCap
  awaiting_empty : d.state = .awaitingStart → d.len = 0 ∧ d.esc = false

/-- Both instances meet their invariants. -/
structure State.Inv (s : State) : Prop where
  enc : s.enc.Inv s.cfg
  dec : s.dec.Inv s.cfg

/-- The pending requests of a state, replaced: what an owner may have asked for so far. -/
def State.withInput (s : State) (input : List Request) : State := { s with input := input }

/-- A number of steps, one after another, stopping at the first that is not a next state (R73, R274). -/
def runSteps : Nat → State → Host.Outcome State Fault Refusal
  | 0, s => .next s
  | n + 1, s =>
    match Sys2Proof.Machine.step s with
    | .next t => runSteps n t
    | .fault r => .fault r
    | .refused r => .refused r

/-- A run: the machine steps until the given requests, and no others, have been served (R73, R274). -/
def serveAll (s : State) (requests : List Request) : Host.Outcome State Fault Refusal :=
  runSteps requests.length (s.withInput requests)

/-- The states of the machine that a run from power-on can reach, with any configuration and any requests. -/
inductive Reachable : State → Prop where
  | powerOn (cfg : Config) (input : List Request) : Reachable ((State.powerOn cfg).withInput input)
  | step {s t : State} : Reachable s → Sys2Proof.Machine.step s = .next t → Reachable t

end Sys2Proof.Machine
end

