-- ==== Sys2Proof/Certificates/Slice0/Obligations.lean ====
section
/-! DEFINITION. The statements for the provers, from the numbered rules of spec/. A statement about an instruction's result gives
the whole next state, so it says what the instruction leaves unchanged as well. -/

open Sys2Proof Sys2Proof.Machine

/-! ### Encodings -/

/-- Decode and encode agree: for every instruction with an encoding of its own, every operand the encoding admits, and every
context the row applies in, the decoder reads back the instruction (R102, R105, R181). -/
def Obligations.DecodeOfEncodeIsTheInstruction : Prop :=
  ∀ (cfg : Config) (ctx : DecContext) (i : Instr),
    i.hasEncoding = true → i.wellFormed cfg = true → i.appliesIn ctx = true →
      (encode cfg i).map (decode cfg ctx) = [.ok i]

/-- The other direction: what the decoder reads is well formed, applies in the context, and is written as the request it was
read from; the reserved command code is read whatever follows it (R102, R105, R181). -/
def Obligations.DecodedRequestsAreWellFormed : Prop :=
  ∀ (cfg : Config) (ctx : DecContext) (r : Request) (i : Instr), decode cfg ctx r = .ok i →
    i.hasEncoding = true ∧ i.wellFormed cfg = true ∧ i.appliesIn ctx = true ∧
      (i = .encCmdReserved ∨ encode cfg i = [r])

/-- Words written out from the spec's encodings are read as the instructions they stand for (opcode_table.json, R105). -/
def Obligations.SpecWordsDecode : Prop :=
  let awaiting : DecContext := ⟨.awaitingStart, false, false⟩
  let open_ : DecContext := ⟨.inFrame, false, false⟩
  let pending : DecContext := ⟨.inFrame, true, false⟩
  let full : DecContext := ⟨.inFrame, false, true⟩
  decode .reference awaiting (.byte 0b00001101#8) = .ok .feedAwaitStart ∧
  decode .reference awaiting (.byte 0b00011011#8) = .ok (.feedAwaitOther 0x1B) ∧
  decode .reference open_ (.byte 0b00001101#8) = .ok .feedFrameStart ∧
  decode .reference open_ (.byte 0b00011011#8) = .ok .feedFrameEscape ∧
  decode .reference open_ (.byte 0b00001010#8) = .ok .feedFrameEnd ∧
  decode .reference open_ (.byte 0x05#8) = .ok (.feedFrameData 0x05) ∧
  decode .reference pending (.byte 0xF2#8) = .ok (.feedFrameEscdata 0xF2) ∧
  decode .reference full (.byte 0x11#8) = .ok (.feedFrameOverrun 0x11) ∧
  decode .reference awaiting .decReset = .ok .decReset ∧
  decode .reference awaiting (.command 0b00#2 []) = .ok .encReset ∧
  decode .reference awaiting (.command 0b01#2 [0x05#8, 0x9C#8, 0xFF#8, 0xFF#8, 0xFF#8]) =
    .ok (.addMessage ⟨0x05, 0x9C, 0xFF, 0xFF, 0xFF⟩) ∧
  decode .reference awaiting (.command 0b10#2 []) = .ok .finalize ∧
  decode .reference awaiting (.command 0b11#2 []) = .ok .encCmdReserved

/-- R102: each byte belongs to exactly one class, decided by value alone, and in AWAITING_START only the class START has an
effect. -/
def Obligations.EveryByteHasOneClass : Prop :=
  ∀ (cfg : Config) (b : Byte),
    (classify cfg b = .start ↔ b = cfg.startByte) ∧
    (classify cfg b = .escape ↔ b = cfg.escapeByte) ∧
    (classify cfg b = .endFrame ↔ b = cfg.endByte) ∧
    (classify cfg b = .data ↔ b ≠ cfg.startByte ∧ b ≠ cfg.escapeByte ∧ b ≠ cfg.endByte) ∧
    ∀ d : Dec, d.state = .awaitingStart → b ≠ cfg.startByte → (d.feed cfg b).1 = d

/-- The reserved command code 0b11 selects no command: its instruction is refused in every state, and so is the step that would
serve it (R105). -/
def Obligations.ReservedCommandCodeIsRefused : Prop :=
  ∀ (s : State) (operand : List Byte) (rest : List Request),
    exec .encCmdReserved s = .refused .reservedCommand ∧
      (s.input = .command 0b11#2 operand :: rest → step s = .refused .reservedCommand)

/-- The codes of events, reasons and statuses (R106, R107). -/
def Obligations.InterfaceCodesAsListed : Prop :=
  (eventCode .waiting = 0 ∧ eventCode .frameStarted = 1 ∧ eventCode .frameRestarted = 2 ∧
    eventCode .byteAppended = 3 ∧ eventCode .escapePending = 4 ∧
    (∀ m, eventCode (.validMessage m) = 5) ∧ (∀ r, eventCode (.invalidMessage r) = 6)) ∧
  (∀ e, reasonCode e = 0 ↔ ∀ r, e ≠ .invalidMessage r) ∧
  reasonCode (.invalidMessage .lengthError) = 1 ∧ reasonCode (.invalidMessage .checksumError) = 2 ∧
  reasonCode (.invalidMessage .capacityOverrun) = 3 ∧
  statusCode .ok = 0 ∧ statusCode .capacityOverrun = 1

/-- R6: parameters whose reserved values are not pairwise distinct, or among which one is the complement of another, make no
configuration; the reference parameters make one. -/
def Obligations.IllFormedReservedValuesAreRefused : Prop :=
  (∀ p : Params,
    (p.startByte = p.endByte ∨ p.startByte = p.escapeByte ∨ p.endByte = p.escapeByte ∨
      (∃ r ∈ p.reserved, complement r ∈ p.reserved)) → Config.ofParams? p = none) ∧
  Config.ofParams? Params.reference = some Config.reference

/-! ### The machine: reset, steps -/

/-- R260: every register of both instances after the power-on reset, whatever the configuration; `State.reset` is that state with
the reference configuration (the choice of the configuration is the model's, log 1). -/
def Obligations.PowerOnRegisters : Prop :=
  (∀ cfg : Config,
    let s := State.powerOn cfg
    s.enc.count = 0 ∧ s.enc.pend = [] ∧ s.enc.acc = crcInit cfg ∧ s.enc.outLen = 0 ∧ s.enc.out = [] ∧
      s.dec.state = .awaitingStart ∧ s.dec.esc = false ∧ s.dec.len = 0 ∧ s.dec.buf = [] ∧
      s.dec.lastValid = false ∧ s.dec.last = none) ∧
  State.reset = State.powerOn Config.reference

/-- A step runs the decoded instruction: the oldest pending request, read in the decoder's present context, is taken from the
list and executed; a request that is no instruction is refused; with nothing pending the machine waits, unchanged, and returns
nothing (the list of requests and the waiting are the model's, log 3 and log 16). -/
def Obligations.StepRunsTheDecodedInstruction : Prop :=
  (∀ (s : State) (r : Request) (rest : List Request) (i : Instr), s.input = r :: rest →
    decode s.cfg ⟨s.dec.state, s.dec.esc, decide (s.cfg.decCap ≤ s.dec.len)⟩ r = .ok i →
      step s = exec i { s with input := rest }) ∧
  (∀ (s : State) (r : Request) (rest : List Request) (e : DecodeError), s.input = r :: rest →
    decode s.cfg ⟨s.dec.state, s.dec.esc, decide (s.cfg.decCap ≤ s.dec.len)⟩ r = .error e →
      step s = .refused .malformedCommand) ∧
  (∀ s : State, s.input = [] → step s = .next { s with resp := .nothing })

/-! ### Invariants -/

/-- R25: the encoder's invariants hold after power-on and are kept by every instruction and every step. -/
def Obligations.EncoderInvariantsHoldBetweenOperations : Prop :=
  (∀ cfg : Config, (State.powerOn cfg).enc.Inv cfg) ∧
  (∀ (i : Instr) (s t : State), s.enc.Inv s.cfg → exec i s = .next t → t.enc.Inv t.cfg) ∧
  (∀ s t : State, s.enc.Inv s.cfg → step s = .next t → t.enc.Inv t.cfg)

/-- R30: the decoder's invariants hold after power-on and are kept by every instruction and every step. -/
def Obligations.DecoderInvariantsHoldBetweenOperations : Prop :=
  (∀ cfg : Config, (State.powerOn cfg).dec.Inv cfg) ∧
  (∀ (i : Instr) (s t : State), s.dec.Inv s.cfg → exec i s = .next t → t.dec.Inv t.cfg) ∧
  (∀ s t : State, s.dec.Inv s.cfg → step s = .next t → t.dec.Inv t.cfg)

/-- Both instances meet their invariants right after reset (R25, R30, R260). -/
def Obligations.ResetMeetsTheInvariants : Prop := State.reset.Inv

/-- Every state a run can reach, from any configuration and any requests, meets both invariants and keeps the buffers in their
canonical form (R25, R30, R71). -/
def Obligations.ReachableStatesMeetTheInvariants : Prop :=
  ∀ s : State, Reachable s → s.Inv ∧ Memory.wf s

/-! ### The decoder's rows: result, frame and completion -/

/-- R182. -/
def Obligations.FeedAwaitStartOpensAFrame : Prop :=
  ∀ s : State, s.dec.state = .awaitingStart →
    exec .feedAwaitStart s =
      .next { s with
        dec := { state := .inFrame, esc := false, buf := [], len := 0, last := s.dec.last }
        resp := .event .frameStarted }

/-- R183. -/
def Obligations.FeedAwaitOtherIsIgnored : Prop :=
  ∀ (s : State) (b : Byte), s.dec.state = .awaitingStart → b ≠ s.cfg.startByte →
    exec (.feedAwaitOther b) s = .next { s with resp := .event .waiting }

/-- R184: whatever DEC.ESC and DEC.LEN are, and without validating. -/
def Obligations.FeedFrameStartRestartsTheFrame : Prop :=
  ∀ s : State, s.dec.state = .inFrame →
    exec .feedFrameStart s =
      .next { s with
        dec := { state := .inFrame, esc := false, buf := [], len := 0, last := s.dec.last }
        resp := .event .frameRestarted }

/-- R185: whatever DEC.ESC and DEC.LEN are. -/
def Obligations.FeedFrameEscapeSetsTheFlag : Prop :=
  ∀ s : State, s.dec.state = .inFrame →
    exec .feedFrameEscape s =
      .next { s with dec := { s.dec with esc := true }, resp := .event .escapePending }

/-- R186 with R217 and R219: the buffered frame is validated, a message it carries is latched, and the working state is reset
whatever the verdict, an escape pending included. -/
def Obligations.FeedFrameEndValidatesAndCloses : Prop :=
  ∀ s : State, s.dec.state = .inFrame → s.dec.buf.length = s.dec.len →
    exec .feedFrameEnd s =
      .next { s with
        dec := { state := .awaitingStart, esc := false, buf := [], len := 0,
                 last := (validate s.cfg s.dec.buf).2.or s.dec.last }
        resp := .event (validate s.cfg s.dec.buf).1 }

/-- R187. -/
def Obligations.FeedFrameDataAppendsTheByte : Prop :=
  ∀ (s : State) (b : Byte), s.dec.state = .inFrame → b ∉ s.cfg.reserved → s.dec.esc = false →
    s.dec.len < s.cfg.decCap → s.dec.buf.length = s.dec.len →
    exec (.feedFrameData b) s =
      .next { s with
        dec := { s.dec with buf := s.dec.buf ++ [b], len := s.dec.len + 1 }
        resp := .event .byteAppended }

/-- R188: any DATA byte, canonical escape or not. -/
def Obligations.FeedFrameEscdataAppendsTheComplement : Prop :=
  ∀ (s : State) (b : Byte), s.dec.state = .inFrame → b ∉ s.cfg.reserved → s.dec.esc = true →
    s.dec.len < s.cfg.decCap → s.dec.buf.length = s.dec.len →
    exec (.feedFrameEscdata b) s =
      .next { s with
        dec := { s.dec with
                  buf := s.dec.buf ++ [BitVec.ofNat 8 (255 - b.toNat)], len := s.dec.len + 1
                  esc := false }
        resp := .event .byteAppended }

/-- R189: whatever DEC.ESC is. -/
def Obligations.FeedFrameOverrunDiscardsTheFrame : Prop :=
  ∀ (s : State) (b : Byte), s.dec.state = .inFrame → b ∉ s.cfg.reserved →
    s.dec.len = s.cfg.decCap →
    exec (.feedFrameOverrun b) s =
      .next { s with
        dec := { state := .awaitingStart, esc := false, buf := [], len := 0, last := s.dec.last }
        resp := .event (.invalidMessage .capacityOverrun) }

/-- R180: no event is emitted. -/
def Obligations.DecResetClearsTheWorkingState : Prop :=
  ∀ s : State,
    exec .decReset s =
      .next { s with
        dec := { state := .awaitingStart, esc := false, buf := [], len := 0, last := s.dec.last }
        resp := .nothing }

/-- A FEED row answers a next state exactly for a byte of its class in a context it applies in; elsewhere its meaning is refused,
and no step asks for that (R181; the refusal is the model's, log 5). -/
def Obligations.FeedRowsRunExactlyInTheirContext : Prop :=
  ∀ (i : Instr) (s : State), (i.inputByte? s.cfg).isSome = true →
    ((∃ t, exec i s = .next t) ↔
      i.wellFormed s.cfg = true ∧ i.appliesIn (s.dec.context s.cfg) = true) ∧
    ((∀ t, exec i s ≠ .next t) → exec i s = .refused .rowNotSelected)

/-- R192: FEED is total. For every configuration, decoder state and byte there is one next decoder state and one event, and every
step that serves the byte gives exactly these, whatever else the state holds. -/
def Obligations.FeedIsTotalAndLocal : Prop :=
  ∀ (cfg : Config) (d : Dec) (b : Byte), ∃ (d' : Dec) (e : DecodeEvent),
    ∀ (s : State) (rest : List Request), s.cfg = cfg → s.dec = d → s.input = .byte b :: rest →
      step s = .next { s with input := rest, dec := d', resp := .event e }

/-- R191: the decoder leaves IN_FRAME only on END, on a capacity overrun or on DEC_RESET, and enters it only on START. -/
def Obligations.FrameIsLeftOnlyOnEndOverrunOrReset : Prop :=
  ∀ s t : State, step s = .next t →
    (s.dec.state = .inFrame → t.dec.state = .awaitingStart →
      ∃ rest, s.input = .byte s.cfg.endByte :: rest ∨ s.input = .decReset :: rest ∨
        ∃ b, s.input = .byte b :: rest ∧ b ∉ s.cfg.reserved ∧ s.cfg.decCap ≤ s.dec.len ∧
          t.resp = .event (.invalidMessage .capacityOverrun)) ∧
    (s.dec.state = .awaitingStart → t.dec.state = .inFrame →
      ∃ rest, s.input = .byte s.cfg.startByte :: rest)

/-- R194: from a START byte onward the events (but the START's own) and the working state depend only on the bytes from that
START; the last good message is the only register through which an earlier state shows. -/
def Obligations.StartErasesTheDecodersHistory : Prop :=
  ∀ (cfg : Config) (d d' : Dec) (bytes : List Byte),
    let x := Dec.feedAll cfg d (cfg.startByte :: bytes)
    let y := Dec.feedAll cfg d' (cfg.startByte :: bytes)
    x.2.tail = y.2.tail ∧ x.1.state = y.1.state ∧ x.1.esc = y.1.esc ∧ x.1.buf = y.1.buf ∧
      x.1.len = y.1.len ∧ (d.last = d'.last → x.1 = y.1) ∧
      x.2.head? = some (if d.state = .awaitingStart then .frameStarted else .frameRestarted)

/-! ### Validation -/

/-- R211 to R215, R220: the verdicts of `validate`, in their fixed order, with the length equation in the naturals. -/
def Obligations.ValidateGivesTheFirstVerdict : Prop :=
  (∀ (cfg : Config) (f : List Byte), f.length < 2 →
    validate cfg f = (.invalidMessage .lengthError, none)) ∧
  ∀ (cfg : Config) (body : List Byte) (count chk : Byte),
    let f := body ++ [count, chk]
    (count.toNat * 5 + 2 ≠ f.length → validate cfg f = (.invalidMessage .lengthError, none)) ∧
    (count.toNat * 5 + 2 = f.length → crc8 cfg (body ++ [count]) ≠ chk →
      validate cfg f = (.invalidMessage .checksumError, none)) ∧
    (count.toNat * 5 + 2 = f.length → crc8 cfg (body ++ [count]) = chk → 1 ≤ count.toNat →
      ∃ m : Message, f.take 5 = m.bytes ∧ validate cfg f = (.validMessage (some m), some m)) ∧
    (count.toNat * 5 + 2 = f.length → crc8 cfg (body ++ [count]) = chk → count.toNat = 0 →
      validate cfg f = (.validMessage none, none))

/-- R222: one byte removed from the Message section of a frame whose length is right, or one byte inserted anywhere into it (the
empty section included), gives a length error. -/
def Obligations.TruncatedOrPaddedFramesAreLengthErrors : Prop :=
  ∀ (cfg : Config) (p q : List Byte) (x count chk : Byte),
    (count.toNat * 5 + 2 = (p ++ [x] ++ q ++ [count, chk]).length →
      validate cfg (p ++ q ++ [count, chk]) = (.invalidMessage .lengthError, none)) ∧
    (count.toNat * 5 + 2 = (p ++ q ++ [count, chk]).length →
      validate cfg (p ++ [x] ++ q ++ [count, chk]) = (.invalidMessage .lengthError, none))

/-- R219: a step changes the last good message exactly when it returns valid_message with a Message, and then to that Message. -/
def Obligations.LastMessageFollowsValidEvents : Prop :=
  ∀ s t : State, step s = .next t →
    (∀ m, t.resp = .event (.validMessage (some m)) → t.dec.last = some m) ∧
    ((∀ m, t.resp ≠ .event (.validMessage (some m))) → t.dec.last = s.dec.last)

/-- R238: every decoder error does the same thing, in the step that detects it. -/
def Obligations.EveryDecoderErrorDiscardsAndResets : Prop :=
  ∀ (s t : State) (r : Reason), step s = .next t → t.resp = .event (.invalidMessage r) →
    t.dec = { state := .awaitingStart, esc := false, buf := [], len := 0, last := s.dec.last } ∧
    t.enc = s.enc ∧ t.cfg = s.cfg

/-! ### The encoder -/

/-- R150: OUT and OUT_LEN are kept, in any state. -/
def Obligations.EncResetClearsTheWorkingState : Prop :=
  ∀ s : State,
    exec .encReset s =
      .next { s with
        enc := { s.enc with pend := [], count := 0, acc := crcInit s.cfg }
        resp := .status .ok }

/-- R151. -/
def Obligations.AddMessageAppendsFoldsAndCounts : Prop :=
  ∀ (s : State) (m : Message), s.enc.count < s.cfg.encMaxMsgs →
    s.enc.pend.length = 5 * s.enc.count →
    exec (.addMessage m) s =
      .next { s with
        enc := { s.enc with
                  pend := s.enc.pend ++ [m.command, m.value0, m.value1, m.value2, m.value3]
                  acc := crcUpdate s.cfg s.enc.acc [m.command, m.value0, m.value1, m.value2, m.value3]
                  count := s.enc.count + 1 }
        resp := .status .ok }

/-- R152: no state change at all but the returned status; a following FINALIZE emits the messages already accepted; and the error
is not sticky: after FINALIZE or ENC_RESET a message is accepted again (in a configuration that holds any message at all). -/
def Obligations.AddMessageAtCapacityIsRejected : Prop :=
  ∀ (s : State) (m : Message), s.enc.count = s.cfg.encMaxMsgs →
    exec (.addMessage m) s = .next { s with resp := .status .capacityOverrun } ∧
    (s.enc.Inv s.cfg →
      let body := s.enc.pend ++ [BitVec.ofNat 8 s.cfg.encMaxMsgs]
      ∃ t, exec .finalize { s with resp := .status .capacityOverrun } = .next t ∧
        t.enc.out = [s.cfg.startByte] ++ stuffAll s.cfg (body ++ [crc8 s.cfg body]) ++ [s.cfg.endByte]) ∧
    ∀ (i : Instr) (t : State) (m' : Message), i = .finalize ∨ i = .encReset →
      0 < s.cfg.encMaxMsgs → exec i { s with resp := .status .capacityOverrun } = .next t →
        ∃ u, exec (.addMessage m') t = .next u ∧ u.resp = .status .ok

/-- R154, R156: FINALIZE builds the frame from PEND, COUNT and the checksum, hands it over, and resets the working state. From a
state that meets the encoder's invariants the checksum is `crc8` of the Message section and COUNT, and the frame fits OUT. -/
def Obligations.FinalizeEmitsTheEscapedFrame : Prop :=
  ∀ s : State, s.enc.pend.length = 5 * s.enc.count →
    let n : Byte := BitVec.ofNat 8 s.enc.count
    let chk := crcFinalize s.cfg (crcUpdate s.cfg s.enc.acc [n])
    let out := [s.cfg.startByte] ++ stuffAll s.cfg (s.enc.pend ++ [n] ++ [chk]) ++ [s.cfg.endByte]
    exec .finalize s =
      .next { s with
        enc := { pend := [], count := 0, acc := crcInit s.cfg, out := out, outLen := out.length }
        resp := .frame .ok out out.length } ∧
    (s.enc.Inv s.cfg → n.toNat = s.enc.count ∧ chk = crc8 s.cfg (s.enc.pend ++ [n]) ∧
      5 * s.enc.count + 4 ≤ out.length ∧ out.length ≤ 10 * s.enc.count + 6 ∧
      out.length ≤ s.cfg.encOutCap)

/-- R155: with no message pending FINALIZE emits the frame of COUNT 0; with the reference parameters that is 0D 00 00 0A. -/
def Obligations.FinalizeWithNothingPending : Prop :=
  ∀ s : State, s.enc.Inv s.cfg → s.enc.count = 0 →
    ∃ t, exec .finalize s = .next t ∧
      t.enc.out = [s.cfg.startByte] ++ stuffAll s.cfg [0x00, crc8 s.cfg [0x00]] ++ [s.cfg.endByte] ∧
      t.enc.outLen = t.enc.out.length ∧
      (s.cfg = Config.reference → t.enc.out = [0x0D, 0x00, 0x00, 0x0A] ∧ t.enc.outLen = 4)

/-- R97, R154: the length of the frame FINALIZE emits, from a state that meets the encoder's invariants: 5N + 4 and one more for
each reserved byte among the 5N + 2 eligible ones, never past the capacity of OUT; the checksum is `crc8` of the Message section
and COUNT. -/
def Obligations.FinalizedFrameLength : Prop :=
  ∀ s : State, s.enc.Inv s.cfg →
    let raw := s.enc.pend ++ [BitVec.ofNat 8 s.enc.count] ++
      [crc8 s.cfg (s.enc.pend ++ [BitVec.ofNat 8 s.enc.count])]
    ∃ t, exec .finalize s = .next t ∧ t.enc.outLen = 5 * s.enc.count + 4 + raw.countP (isReserved s.cfg) ∧
      5 * s.enc.count + 4 ≤ t.enc.outLen ∧ t.enc.outLen ≤ 10 * s.enc.count + 6 ∧
      t.enc.outLen ≤ s.cfg.encOutCap

/-- R153: each message of a batch is accepted or rejected on its own: the first ENC_MAX_MSGS - ENC.COUNT are accepted and every
later one returns capacity_overrun. -/
def Obligations.AddBatchAcceptsWhatFits : Prop :=
  ∀ (s : State) (ms : List Message), s.enc.count ≤ s.cfg.encMaxMsgs →
    s.enc.pend.length = 5 * s.enc.count →
    let room := s.cfg.encMaxMsgs - s.enc.count
    let fit := (ms.take room).flatMap Message.bytes
    exec (.addBatch ms) s =
      .next { s with
        enc := { s.enc with
                  pend := s.enc.pend ++ fit, acc := crcUpdate s.cfg s.enc.acc fit
                  count := s.enc.count + (ms.take room).length }
        resp := .statuses (List.replicate (ms.take room).length .ok ++
          List.replicate (ms.length - room) .capacityOverrun) }

/-- R159: the closed form of `encode`, from any state. -/
def Obligations.EncodeClosedForm : Prop :=
  ∀ (s : State) (ms : List Message), ms.length ≤ s.cfg.encMaxMsgs →
    let body := ms.flatMap Message.bytes ++ [BitVec.ofNat 8 ms.length]
    let out := [s.cfg.startByte] ++ stuffAll s.cfg (body ++ [crc8 s.cfg body]) ++ [s.cfg.endByte]
    exec (.encodeMessages ms) s =
      .next { s with
        enc := { pend := [], count := 0, acc := crcInit s.cfg, out := out, outLen := out.length }
        resp := .encoded (some out) }

/-- Beyond the capacity `encode` denotes no byte sequence, and its expansion finalises the messages that fit (the model's
reading of "not defined", log 11; the rejected messages by R152). -/
def Obligations.EncodeBeyondCapacityDenotesNothing : Prop :=
  ∀ (s : State) (ms : List Message), s.cfg.encMaxMsgs < ms.length →
    ∃ t u, exec (.encodeMessages ms) s = .next t ∧ t.resp = .encoded none ∧
      exec (.encodeMessages (ms.take s.cfg.encMaxMsgs)) s = .next u ∧ t.enc = u.enc ∧ t.dec = s.dec

/-- R24, R160: OUT and OUT_LEN change only at FINALIZE (or the `encode` that ends in one). R274: so a run of an encoder lists one
status per command and one output per FINALIZE, the last of which is what OUT and OUT_LEN hold at the end; and serving the trace
by steps, from any state, returns exactly these and ends in the run's final state. -/
def Obligations.OutputChangesOnlyAtFinalize : Prop :=
  (∀ (i : Instr) (s t : State), exec i s = .next t → i ≠ .finalize → (∀ ms, i ≠ .encodeMessages ms) →
    t.enc.out = s.enc.out ∧ t.enc.outLen = s.enc.outLen) ∧
  (∀ (cfg : Config) (e : Enc) (cs : List EncCommand),
    let r := Enc.run cfg e cs
    r.statuses.length = cs.length ∧ r.frames.length = cs.count .finalize ∧
      (r.final.readOut, r.final.outLen) = r.frames.getLastD (e.readOut, e.outLen)) ∧
  (∀ (s : State) (cs : List EncCommand), ∃ (u : State) (rs : List Response),
    let r := Enc.run s.cfg s.enc cs
    serveTrace s (cs.map EncCommand.request) = .next (u, rs) ∧
      u.enc = r.final ∧ rs.map Response.status? = r.statuses.map some ∧
      rs.filterMap Response.frame? = r.frames ∧ u.dec = s.dec ∧ u.cfg = s.cfg ∧ u.input = [])

/-! ### Pseudo-operations -/

/-- R110: feed_all of no byte changes nothing, and of a byte and more it is the FEED of that byte followed by feed_all of the
rest; it always completes. R274: serving a byte sequence by steps, from any state, returns the events of the decoder's run and ends
in its final state. -/
def Obligations.FeedAllIsTheFoldOfFeed : Prop :=
  ∀ s : State,
    exec (.feedAll []) s = .next { s with resp := .events [] } ∧
    (∀ (b : Byte) (bytes : List Byte), ∃ (t u : State) (e : DecodeEvent) (es : List DecodeEvent),
      step { s with input := .byte b :: s.input } = .next t ∧ t.resp = .event e ∧
      exec (.feedAll bytes) t = .next u ∧ u.resp = .events es ∧
      exec (.feedAll (b :: bytes)) s = .next { u with resp := .events (e :: es) }) ∧
    ∀ bytes : List Byte, ∃ (u : State) (rs : List Response),
      let r := Dec.run s.cfg s.dec bytes
      serveTrace s (bytes.map .byte) = .next (u, rs) ∧
        u.dec = r.final ∧ rs.map Response.event? = r.events.map some ∧
        u.enc = s.enc ∧ u.cfg = s.cfg ∧ u.input = []

/-- R110: decode_first_message is feed_all from a decoder in its power-on state, and its result is the Message of the first
valid_message event, if any (the power-on start is opcode_table.json's, log 12). -/
def Obligations.DecodeFirstMessageFeedsAFreshDecoder : Prop :=
  ∀ (s : State) (bytes : List Byte), ∃ (t : State) (es : List DecodeEvent) (r : Option Message),
    exec (.feedAll bytes) { s with dec := Dec.powerOn } = .next t ∧ t.resp = .events es ∧
    exec (.decodeFirstMessage bytes) s = .next { t with resp := .firstMessage r } ∧
    ((∀ m, .validMessage m ∉ es) → r = none) ∧
    ∀ before m after, es = before ++ .validMessage m :: after → (∀ m', .validMessage m' ∉ before) →
      r = m

/-- R110, R153, R159: a pseudo-operation is its expansion. Serving the requests `encode` writes for it leaves both instances and
the configuration as the instruction itself does. -/
def Obligations.PseudoOperationsAreTheirExpansions : Prop :=
  ∀ (i : Instr) (s : State),
    ((∃ ms, i = .addBatch ms) ∨ (∃ ms, i = .encodeMessages ms) ∨ (∃ bytes, i = .feedAll bytes) ∨
      (∃ bytes, i = .decodeFirstMessage bytes) ∧ s.dec = Dec.powerOn) →
    ∃ t u, exec i s = .next t ∧ serveAll s (encode s.cfg i) = .next u ∧
      u.enc = t.enc ∧ u.dec = t.dec ∧ u.cfg = t.cfg ∧ u.input = []

/-! ### The CRC-8 unit -/

/-- R134. -/
def Obligations.CrcInitReturnsTheInitialValue : Prop :=
  ∀ s : State, exec .crcInit s = .next { s with resp := .accumulator s.cfg.crcInitVal }

/-- R135: CRC_UPDATE is the bitwise engine over the bytes in ascending order. -/
def Obligations.CrcUpdateRunsTheBitwiseEngine : Prop :=
  ∀ (s : State) (acc : Byte) (bytes : List Byte),
    let shift : Byte → Byte := fun a =>
      if a.getLsbD 7 then ((a <<< 1) &&& 0xFF#8) ^^^ s.cfg.crcPoly else (a <<< 1) &&& 0xFF#8
    let fold : Byte → Byte → Byte := fun a b =>
      shift^[8] (a ^^^ (if s.cfg.crcRefin then reflect8 b else b))
    exec (.crcUpdate acc bytes) s = .next { s with resp := .accumulator (bytes.foldl fold acc) }

/-- R136, with `reflect8` as R133 has it: bit k of the reflection is bit 7 - k. -/
def Obligations.CrcFinalizeReflectsAndXors : Prop :=
  ∀ (s : State) (acc : Byte),
    exec (.crcFinalize acc) s =
      .next { s with
        resp := .checksum ((if s.cfg.crcRefout then reflect8 acc else acc) ^^^ s.cfg.crcXorout) } ∧
    ∀ k : Nat, k < 8 → (reflect8 acc).getLsbD k = acc.getLsbD (7 - k)

/-- R131. -/
def Obligations.CrcFoldLaw : Prop :=
  ∀ (cfg : Config) (a : Byte) (s t : List Byte),
    crcUpdate cfg (crcUpdate cfg a s) t = crcUpdate cfg a (s ++ t) ∧ crcUpdate cfg a [] = a

/-- R138: the reference parameters and their check value. -/
def Obligations.CrcReferenceCheckValue : Prop :=
  Config.reference.crcPoly = 0x07 ∧ Config.reference.crcInitVal = 0x00 ∧
  Config.reference.crcRefin = false ∧ Config.reference.crcRefout = false ∧
  Config.reference.crcXorout = 0x00 ∧
  crc8 Config.reference [0x31, 0x32, 0x33, 0x34, 0x35, 0x36, 0x37, 0x38, 0x39] = 0xF4

/-- R140, at the CRC: two byte sequences of equal length that differ in exactly one bit have different checksums, for every
well-formed configuration. -/
def Obligations.CrcDetectsEverySingleBitError : Prop :=
  ∀ (cfg : Config) (p q : List Byte) (x : Byte) (k : Nat), k < 8 →
    crc8 cfg (p ++ [x] ++ q) ≠ crc8 cfg (p ++ [x ^^^ (1#8 <<< k)] ++ q)

/-- R140, at the frame: in a buffered frame that passes validation, one bit flipped in the Message section is a checksum error,
and one bit flipped in the COUNT byte is a length error; neither is reported valid. -/
def Obligations.SingleBitFlipsAreNeverValid : Prop :=
  ∀ (cfg : Config) (p q : List Byte) (x count chk : Byte) (k : Nat), k < 8 →
    count.toNat * 5 + 2 = (p ++ [x] ++ q ++ [count, chk]).length →
    crc8 cfg (p ++ [x] ++ q ++ [count]) = chk →
      validate cfg (p ++ [x ^^^ (1#8 <<< k)] ++ q ++ [count, chk]) =
        (.invalidMessage .checksumError, none) ∧
      validate cfg (p ++ [x] ++ q ++ [count ^^^ (1#8 <<< k), chk]) =
        (.invalidMessage .lengthError, none)

/-- R141: with no reflection and no final XOR, folding the checksum in as well leaves zero. -/
def Obligations.CrcResidueIsZero : Prop :=
  ∀ (cfg : Config) (s : List Byte), cfg.crcXorout = 0 → cfg.crcRefin = false → cfg.crcRefout = false →
    crcUpdate cfg (crcInit cfg) (s ++ [crc8 cfg s]) = 0

/-! ### Stuffing -/

/-- R95: what `is_reserved`, `stuff` and `stuff_all` are. -/
def Obligations.StuffingReplacesReservedBytes : Prop :=
  ∀ cfg : Config,
    (∀ x, isReserved cfg x = true ↔ x = cfg.startByte ∨ x = cfg.endByte ∨ x = cfg.escapeByte) ∧
    (∀ x, isReserved cfg x = true → stuff cfg x = [cfg.escapeByte, BitVec.ofNat 8 (255 - x.toNat)]) ∧
    (∀ x, isReserved cfg x = false → stuff cfg x = [x]) ∧
    ∀ l, stuffAll cfg l = (l.map (stuff cfg)).flatten

/-- R100: `255 - x` is the bitwise complement, equals `x XOR 0xFF`, needs no wrap, and never equals `x`. -/
def Obligations.ComplementIsBitwise : Prop :=
  ∀ x : Byte, (complement x).toNat = 255 - x.toNat ∧ complement x = ~~~x ∧
    complement x = x ^^^ 0xFF#8 ∧ complement x ≠ x

/-- R98: in an escaped frame START stands once, first; END once, last; and ESCAPE only before the complement of a reserved value,
which is not itself reserved. -/
def Obligations.EscapedFrameIsDelimited : Prop :=
  ∀ (cfg : Config) (raw : List Byte),
    let f := escapedFrame cfg raw
    f.head? = some cfg.startByte ∧ f.count cfg.startByte = 1 ∧
    f.getLast? = some cfg.endByte ∧ f.count cfg.endByte = 1 ∧
    ∀ k, f[k]? = some cfg.escapeByte →
      ∃ r ∈ cfg.reserved, f[k + 1]? = some (complement r) ∧ complement r ∉ cfg.reserved

/-- R99: unstuffing inverts stuffing, as a function and done by the decoder one byte at a time: from inside a frame with no
escape pending and room enough, the stuffed bytes append exactly the raw ones. -/
def Obligations.UnstuffingInvertsStuffing : Prop :=
  ∀ (cfg : Config) (raw : List Byte),
    unstuff cfg (stuffAll cfg raw) = raw ∧
    ∀ d : Dec, d.state = .inFrame → d.esc = false → d.buf.length = d.len →
      d.len + raw.length ≤ cfg.decCap →
      (Dec.feedAll cfg d (stuffAll cfg raw)).1 =
        { d with buf := d.buf ++ raw, len := d.len + raw.length }

/-! ### Both halves -/

/-- R221: the round trip. Whatever state the machine is in, `encode` of 1 to min(ENC_MAX_MSGS, (DEC_CAP - 2) / 5) messages
gives a frame of which decode_first_message is the first message; fed to a power-on decoder its last event is valid_message with
that message, and the decoder ends in AWAITING_START with an empty buffer. -/
def Obligations.DecodeOfEncodedFrameIsTheFirstMessage : Prop :=
  ∀ (s : State) (m : Message) (ms : List Message),
    (m :: ms).length ≤ min s.cfg.encMaxMsgs ((s.cfg.decCap - 2) / 5) →
    ∃ (t u v : State) (frame : List Byte) (es : List DecodeEvent),
      exec (.encodeMessages (m :: ms)) s = .next t ∧ t.resp = .encoded (some frame) ∧
      exec (.decodeFirstMessage frame) t = .next u ∧ u.resp = .firstMessage (some m) ∧
      exec (.feedAll frame) { t with dec := Dec.powerOn } = .next v ∧ v.resp = .events es ∧
      es.getLast? = some (.validMessage (some m)) ∧
      v.dec = { state := .awaitingStart, esc := false, buf := [], len := 0, last := some m }

/-- R270: frames of an encoder that does not stuff a checksum of reserved value. A literal END closes the frame early (length
error, then the real END is waiting); a literal START restarts it (then a length error); a literal ESCAPE sets the flag (then a
length error). -/
def Obligations.UnstuffedChecksumIsRejected : Prop :=
  ∀ (cfg : Config) (body : List Byte) (count : Byte), body.length = 5 * count.toNat →
    body.length + 1 ≤ cfg.decCap →
    let sent := cfg.startByte :: stuffAll cfg (body ++ [count])
    let events := fun chk => (Dec.feedAll cfg Dec.powerOn (sent ++ [chk, cfg.endByte])).2.drop sent.length
    events cfg.endByte = [.invalidMessage .lengthError, .waiting] ∧
    events cfg.startByte = [.frameRestarted, .invalidMessage .lengthError] ∧
    events cfg.escapeByte = [.escapePending, .invalidMessage .lengthError]

/-- R34, R76: no instruction and no step writes the configuration, and no instruction touches the pending requests. -/
def Obligations.ConfigurationIsNeverWritten : Prop :=
  (∀ (i : Instr) (s t : State), exec i s = .next t → t.cfg = s.cfg ∧ t.input = s.input) ∧
  (∀ s t : State, step s = .next t → t.cfg = s.cfg)

/-- R20, R74: the two instances share nothing. An operation of the decoder leaves the encoder alone and does the same whatever
the encoder holds; an operation of the encoder likewise. -/
def Obligations.InstancesShareNothing : Prop :=
  (∀ (i : Instr) (s t : State),
    ((i.inputByte? s.cfg).isSome = true ∨ i = .decReset ∨ (∃ bytes, i = .feedAll bytes) ∨
      (∃ bytes, i = .decodeFirstMessage bytes)) → exec i s = .next t →
    t.enc = s.enc ∧ ∀ e : Enc, exec i { s with enc := e } = .next { t with enc := e }) ∧
  (∀ (i : Instr) (s t : State),
    (i = .encReset ∨ (∃ m, i = .addMessage m) ∨ i = .finalize ∨ (∃ ms, i = .addBatch ms) ∨
      (∃ ms, i = .encodeMessages ms)) → exec i s = .next t →
    t.dec = s.dec ∧ ∀ d : Dec, exec i { s with dec := d } = .next { t with dec := d })

/-- R241: nothing wedges either half. From every state the next START opens an empty frame; from every state that meets the
decoder's invariants the next END leaves AWAITING_START with an empty buffer, and so does a DATA byte that overruns; FINALIZE and
ENC_RESET leave the encoder's reset state. -/
def Obligations.NoStateIsStuck : Prop :=
  ∀ (s : State) (rest : List Request),
    (s.input = .byte s.cfg.startByte :: rest → ∃ t, step s = .next t ∧ t.dec.state = .inFrame ∧
      t.dec.esc = false ∧ t.dec.buf = [] ∧ t.dec.len = 0) ∧
    (s.dec.Inv s.cfg → s.input = .byte s.cfg.endByte :: rest → ∃ t, step s = .next t ∧
      t.dec.state = .awaitingStart ∧ t.dec.esc = false ∧ t.dec.buf = [] ∧ t.dec.len = 0) ∧
    (∀ b, s.dec.state = .inFrame → b ∉ s.cfg.reserved → s.dec.len = s.cfg.decCap →
      s.input = .byte b :: rest → ∃ t, step s = .next t ∧
      t.dec.state = .awaitingStart ∧ t.dec.esc = false ∧ t.dec.buf = [] ∧ t.dec.len = 0) ∧
    (∀ code, code = 0b00#2 ∨ code = 0b10#2 → s.input = .command code [] :: rest →
      ∃ t, step s = .next t ∧ t.enc.count = 0 ∧ t.enc.pend = [] ∧ t.enc.acc = crcInit s.cfg)
end

