-- ==== Sys2Proof/Laws/Bytes.lean ====
section
/-! SUPPORT. Small facts about bytes, reserved values and byte classes that every well-formed configuration gives (R6, R100,
R102). -/

namespace Sys2Proof

/-! ### complement -/

theorem complement_complement (x : Byte) : complement (complement x) = x := by
  apply BitVec.eq_of_toNat_eq
  have := x.isLt
  simp only [complement, BitVec.toNat_ofNat]
  omega

theorem complement_injective {x y : Byte} (h : complement x = complement y) : x = y := by
  rw [← complement_complement x, h, complement_complement]

/-! ### What a configuration's well-formedness says -/

namespace Config

variable (cfg : Config)

theorem start_ne_end : cfg.startByte ≠ cfg.endByte := by
  have h := cfg.ok.1
  simp only [Params.reserved, List.nodup_cons, List.mem_cons, not_or] at h
  exact h.1.1

theorem start_ne_escape : cfg.startByte ≠ cfg.escapeByte := by
  have h := cfg.ok.1
  simp only [Params.reserved, List.nodup_cons, List.mem_cons, not_or] at h
  exact h.1.2.1

theorem end_ne_escape : cfg.endByte ≠ cfg.escapeByte := by
  have h := cfg.ok.1
  simp only [Params.reserved, List.nodup_cons, List.mem_cons, not_or] at h
  exact h.2.1.1

theorem complement_not_reserved {x : Byte} (h : x ∈ cfg.reserved) :
    complement x ∉ cfg.reserved := cfg.ok.2.1 x h

theorem frameCap_ge : 4 ≤ cfg.encFrameCap := cfg.ok.2.2.1
theorem maxMsgs_le : cfg.encMaxMsgs ≤ 255 := cfg.ok.2.2.2.1
theorem decCap_ge : 2 ≤ cfg.decCap := cfg.ok.2.2.2.2.1
theorem poly_ne_zero : cfg.crcPoly ≠ 0 := cfg.ok.2.2.2.2.2

end Config

theorem mem_reserved {cfg : Config} {x : Byte} :
    x ∈ cfg.reserved ↔ x = cfg.startByte ∨ x = cfg.endByte ∨ x = cfg.escapeByte := by
  simp [Params.reserved]

/-! ### Byte classes -/

variable (cfg : Config)

@[simp] theorem classify_start : classify cfg cfg.startByte = .start := by simp [classify]

@[simp] theorem classify_escape : classify cfg cfg.escapeByte = .escape := by
  simp [classify, cfg.start_ne_escape.symm]

@[simp] theorem classify_end : classify cfg cfg.endByte = .endFrame := by
  simp [classify, cfg.start_ne_end.symm, cfg.end_ne_escape]

theorem classify_data {b : Byte} (h : b ∉ cfg.reserved) : classify cfg b = .data := by
  simp only [mem_reserved, not_or] at h
  simp [classify, h.1, h.2.1, h.2.2]

theorem not_reserved_of_classify {b : Byte} (h : classify cfg b = .data) : b ∉ cfg.reserved := by
  simp only [classify] at h
  simp only [mem_reserved, not_or]
  grind

namespace Machine

theorem isReserved_iff {x : Byte} : isReserved cfg x = true ↔ x ∈ cfg.reserved := by
  simp [isReserved, mem_reserved, or_assoc]

/-! ### stuff and stuff_all -/

theorem stuff_of_reserved {x : Byte} (h : x ∈ cfg.reserved) :
    stuff cfg x = [cfg.escapeByte, complement x] := by
  simp [stuff, (isReserved_iff cfg).2 h]

theorem stuff_of_not_reserved {x : Byte} (h : x ∉ cfg.reserved) : stuff cfg x = [x] := by
  simp only [stuff, ite_eq_right_iff]
  exact fun h' => absurd ((isReserved_iff cfg).1 h') h

@[simp] theorem stuffAll_nil : stuffAll cfg [] = [] := rfl

@[simp] theorem stuffAll_cons (x : Byte) (l : List Byte) :
    stuffAll cfg (x :: l) = stuff cfg x ++ stuffAll cfg l := rfl

theorem stuffAll_append (l m : List Byte) :
    stuffAll cfg (l ++ m) = stuffAll cfg l ++ stuffAll cfg m := by
  induction l with
  | nil => rfl
  | cons x l ih => simp [ih]

theorem length_stuff_le (x : Byte) : (stuff cfg x).length ≤ 2 := by
  unfold stuff; split <;> simp

theorem length_stuff_pos (x : Byte) : 1 ≤ (stuff cfg x).length := by
  unfold stuff; split <;> simp

theorem length_stuffAll_le (l : List Byte) : (stuffAll cfg l).length ≤ 2 * l.length := by
  induction l with
  | nil => simp
  | cons x l ih =>
    have := length_stuff_le cfg x
    simp only [stuffAll_cons, List.length_append, List.length_cons]
    omega

theorem length_le_stuffAll (l : List Byte) : l.length ≤ (stuffAll cfg l).length := by
  induction l with
  | nil => simp
  | cons x l ih =>
    have := length_stuff_pos cfg x
    simp only [stuffAll_cons, List.length_append, List.length_cons]
    omega

/-! ### Messages -/

@[simp] theorem length_bytes (m : Message) : m.bytes.length = 5 := rfl

@[simp] theorem messageOfBytes_bytes (m : Message) : messageOfBytes m.bytes = some m := rfl

theorem bytes_of_messageOfBytes {l : List Byte} {m : Message} (h : messageOfBytes l = some m) :
    l = m.bytes := by
  unfold messageOfBytes at h
  split at h
  · cases h; rfl
  · cases h

end Machine

end Sys2Proof
end

