-- ==== Sys2Proof/Laws/State.lean ====
section
/-! SUPPORT. One lemma per field per update of State, Enc and Dec, so that no later proof unfolds a record update. -/

namespace Sys2Proof.Machine

variable (s : State) (d : Dec) (e : Enc) (r : Response) (cfg : Config) (l : List Request)

/-! ### completeDec -/

@[simp] theorem State.completeDec_cfg : (s.completeDec d r).cfg = s.cfg := rfl
@[simp] theorem State.completeDec_enc : (s.completeDec d r).enc = s.enc := rfl
@[simp] theorem State.completeDec_dec : (s.completeDec d r).dec = d := rfl
@[simp] theorem State.completeDec_input : (s.completeDec d r).input = s.input := rfl
@[simp] theorem State.completeDec_resp : (s.completeDec d r).resp = r := rfl

/-! ### completeEnc -/

@[simp] theorem State.completeEnc_cfg : (s.completeEnc e r).cfg = s.cfg := rfl
@[simp] theorem State.completeEnc_enc : (s.completeEnc e r).enc = e := rfl
@[simp] theorem State.completeEnc_dec : (s.completeEnc e r).dec = s.dec := rfl
@[simp] theorem State.completeEnc_input : (s.completeEnc e r).input = s.input := rfl
@[simp] theorem State.completeEnc_resp : (s.completeEnc e r).resp = r := rfl

/-! ### respond, idle, withInput -/

@[simp] theorem State.respond_cfg : (s.respond r).cfg = s.cfg := rfl
@[simp] theorem State.respond_enc : (s.respond r).enc = s.enc := rfl
@[simp] theorem State.respond_dec : (s.respond r).dec = s.dec := rfl
@[simp] theorem State.respond_input : (s.respond r).input = s.input := rfl
@[simp] theorem State.respond_resp : (s.respond r).resp = r := rfl

@[simp] theorem State.idle_cfg : s.idle.cfg = s.cfg := rfl
@[simp] theorem State.idle_enc : s.idle.enc = s.enc := rfl
@[simp] theorem State.idle_dec : s.idle.dec = s.dec := rfl
@[simp] theorem State.idle_input : s.idle.input = s.input := rfl
@[simp] theorem State.idle_resp : s.idle.resp = .nothing := rfl

@[simp] theorem State.withInput_cfg : (s.withInput l).cfg = s.cfg := rfl
@[simp] theorem State.withInput_enc : (s.withInput l).enc = s.enc := rfl
@[simp] theorem State.withInput_dec : (s.withInput l).dec = s.dec := rfl
@[simp] theorem State.withInput_input : (s.withInput l).input = l := rfl
@[simp] theorem State.withInput_resp : (s.withInput l).resp = s.resp := rfl

/-! ### powerOn -/

@[simp] theorem State.powerOn_cfg : (State.powerOn cfg).cfg = cfg := rfl
@[simp] theorem State.powerOn_enc : (State.powerOn cfg).enc = Enc.powerOn cfg := rfl
@[simp] theorem State.powerOn_dec : (State.powerOn cfg).dec = Dec.powerOn := rfl
@[simp] theorem State.powerOn_input : (State.powerOn cfg).input = [] := rfl
@[simp] theorem State.powerOn_resp : (State.powerOn cfg).resp = .nothing := rfl

@[simp] theorem Enc.powerOn_pend : (Enc.powerOn cfg).pend = [] := rfl
@[simp] theorem Enc.powerOn_count : (Enc.powerOn cfg).count = 0 := rfl
@[simp] theorem Enc.powerOn_acc : (Enc.powerOn cfg).acc = crcInit cfg := rfl
@[simp] theorem Enc.powerOn_out : (Enc.powerOn cfg).out = [] := rfl
@[simp] theorem Enc.powerOn_outLen : (Enc.powerOn cfg).outLen = 0 := rfl

@[simp] theorem Dec.powerOn_state : Dec.powerOn.state = .awaitingStart := rfl
@[simp] theorem Dec.powerOn_esc : Dec.powerOn.esc = false := rfl
@[simp] theorem Dec.powerOn_buf : Dec.powerOn.buf = [] := rfl
@[simp] theorem Dec.powerOn_len : Dec.powerOn.len = 0 := rfl
@[simp] theorem Dec.powerOn_last : Dec.powerOn.last = none := rfl

/-! ### The working-state resets -/

@[simp] theorem Enc.workReset_pend : (e.workReset cfg).pend = [] := rfl
@[simp] theorem Enc.workReset_count : (e.workReset cfg).count = 0 := rfl
@[simp] theorem Enc.workReset_acc : (e.workReset cfg).acc = crcInit cfg := rfl
@[simp] theorem Enc.workReset_out : (e.workReset cfg).out = e.out := rfl
@[simp] theorem Enc.workReset_outLen : (e.workReset cfg).outLen = e.outLen := rfl

@[simp] theorem Dec.workReset_state : d.workReset.state = .awaitingStart := rfl
@[simp] theorem Dec.workReset_esc : d.workReset.esc = false := rfl
@[simp] theorem Dec.workReset_buf : d.workReset.buf = [] := rfl
@[simp] theorem Dec.workReset_len : d.workReset.len = 0 := rfl
@[simp] theorem Dec.workReset_last : d.workReset.last = d.last := rfl

/-! ### The context of a decoder -/

@[simp] theorem Dec.context_state : (d.context cfg).state = d.state := rfl
@[simp] theorem Dec.context_esc : (d.context cfg).esc = d.esc := rfl
@[simp] theorem Dec.context_full : (d.context cfg).full = decide (cfg.decCap ≤ d.len) := rfl

/-! ### FINALIZE -/

@[simp] theorem Enc.finalize_pend : (e.finalize cfg).pend = [] := rfl
@[simp] theorem Enc.finalize_count : (e.finalize cfg).count = 0 := rfl
@[simp] theorem Enc.finalize_acc : (e.finalize cfg).acc = crcInit cfg := rfl
@[simp] theorem Enc.finalize_out : (e.finalize cfg).out = e.buildFrame cfg := rfl
@[simp] theorem Enc.finalize_outLen : (e.finalize cfg).outLen = (e.buildFrame cfg).length := rfl

end Sys2Proof.Machine
end

