-- ==== Sys2Proof/Laws/Memory.lean ====
section
/-! SUPPORT. The buffer accesses, and that every operation on the buffers keeps their canonical form `Memory.wf` (R70, R71). -/

namespace Sys2Proof.Machine

/-! ### memRead, memWrite -/

/-- A write answers exactly when it fits the capacity (R71). -/
theorem memWrite_isSome {cap : Nat} {buf v : List Byte} {i : Nat} :
    (memWrite cap buf i v).isSome ↔ i + v.length ≤ cap := by
  unfold memWrite; split <;> simp_all

/-- Everything a write at the cursor can do: append within the capacity, or nothing (R71). -/
theorem memWrite_append (cap : Nat) (buf v : List Byte) :
    memWrite cap buf buf.length v =
      if buf.length + v.length ≤ cap then some (buf ++ v) else none := by
  have h : buf.drop (buf.length + v.length) = [] := List.drop_eq_nil_of_le (by omega)
  simp [memWrite, h]

/-- The written range reads back as written. -/
theorem memRead_memWrite_same {cap : Nat} {buf buf' v : List Byte} {i : Nat} (hi : i ≤ buf.length)
    (h : memWrite cap buf i v = some buf') : memRead buf' i v.length = some v := by
  unfold memWrite at h
  split at h
  · cases h
    have ht : (buf.take i).length = i := by simp [hi]
    simp [memRead, List.append_assoc, ht]
  · cases h

/-- A byte below the written range reads as before. -/
theorem memWrite_below {cap : Nat} {buf buf' v : List Byte} {i j : Nat} (hi : i ≤ buf.length)
    (h : memWrite cap buf i v = some buf') (hj : j < i) : buf'[j]? = buf[j]? := by
  unfold memWrite at h
  split at h
  · cases h
    rw [List.append_assoc, List.getElem?_append_left (by simp; omega), List.getElem?_take_of_lt hj]
  · cases h

/-- A byte above the written range reads as before. -/
theorem memWrite_above {cap : Nat} {buf buf' v : List Byte} {i j : Nat} (hi : i ≤ buf.length)
    (h : memWrite cap buf i v = some buf') (hj : i + v.length ≤ j) : buf'[j]? = buf[j]? := by
  unfold memWrite at h
  split at h
  · cases h
    have ht : (buf.take i).length = i := by simp [hi]
    rw [List.getElem?_append_right (by simp [ht]; omega), List.getElem?_drop]
    congr 1
    simp [ht]
    omega
  · cases h

/-- A frame read through `MemRead` is the meaningful part of the buffer (R70, R210). -/
theorem memRead_frame {d : Dec} (h : d.buf.length = d.len) :
    memRead d.buf 0 d.len = some d.frame := by
  simp [memRead, Dec.frame, h]

theorem Dec.frame_eq {d : Dec} (h : d.buf.length = d.len) : d.frame = d.buf := by
  simp [Dec.frame, ← h]

theorem Enc.pending_eq {e : Enc} (h : e.pend.length = 5 * e.count) : e.pending = e.pend := by
  simp [Enc.pending, ← h]

theorem Enc.readOut_eq {e : Enc} (h : e.out.length = e.outLen) : e.readOut = e.out := by
  simp [Enc.readOut, ← h]

/-! ### Everything ADD_MESSAGE can do to the encoder -/

theorem Enc.addMessage_accepted {cfg : Config} {e : Enc} (m : Message)
    (hp : e.pend.length = 5 * e.count) (hc : e.count < cfg.encMaxMsgs) :
    e.addMessage cfg m =
      ({ e with pend := e.pend ++ m.bytes, acc := crcUpdate cfg e.acc m.bytes,
                count := e.count + 1 }, .ok) := by
  have := memWrite_append (5 * cfg.encMaxMsgs) e.pend m.bytes
  rw [if_pos (by simp [hp]; omega), hp] at this
  simp [Enc.addMessage, this]

theorem Enc.addMessage_rejected {cfg : Config} {e : Enc} (m : Message)
    (hc : cfg.encMaxMsgs ≤ e.count) : e.addMessage cfg m = (e, .capacityOverrun) := by
  have : memWrite (5 * cfg.encMaxMsgs) e.pend (5 * e.count) m.bytes = none := by
    simp [memWrite]; omega
  simp [Enc.addMessage, this, Enc.raiseOverrun]

/-! ### Everything an append can do to the decoder -/

theorem Dec.append_fits {cfg : Config} {d : Dec} (x : Byte) (hb : d.buf.length = d.len)
    (hc : d.len < cfg.decCap) :
    d.append cfg x = ({ d with buf := d.buf ++ [x], len := d.len + 1 }, .byteAppended) := by
  have := memWrite_append cfg.decCap d.buf [x]
  rw [if_pos (by simp [hb]; omega), hb] at this
  simp [Dec.append, this]

theorem Dec.append_overruns {cfg : Config} {d : Dec} (x : Byte) (hc : cfg.decCap ≤ d.len) :
    d.append cfg x = d.raiseError .capacityOverrun := by
  have : memWrite cfg.decCap d.buf d.len [x] = none := by
    simp [memWrite]; omega
  simp [Dec.append, this]

/-! ### The canonical form -/

/-- The encoder's share of `Memory.wf`. -/
abbrev Enc.Wf (cfg : Config) (e : Enc) : Prop :=
  e.count ≤ cfg.encMaxMsgs ∧ e.pend.length = 5 * e.count ∧ e.out.length = e.outLen ∧
    e.outLen ≤ cfg.encOutCap

/-- The decoder's share of `Memory.wf`. -/
abbrev Dec.Wf (cfg : Config) (d : Dec) : Prop := d.buf.length = d.len ∧ d.len ≤ cfg.decCap

theorem Memory.wf_iff {s : State} : Memory.wf s ↔ s.enc.Wf s.cfg ∧ s.dec.Wf s.cfg := by
  simp [Memory.wf, Enc.Wf, Dec.Wf, and_assoc]

theorem Memory.wf_reset : Memory.wf State.reset := by decide

theorem Memory.wf_powerOn (cfg : Config) : Memory.wf (State.powerOn cfg) := by
  simp [Memory.wf]

theorem Enc.workReset_wf {cfg : Config} {e : Enc} (h : e.Wf cfg) : (e.workReset cfg).Wf cfg := by
  simp [Enc.Wf, h.2.2.1, h.2.2.2]

theorem Enc.addMessage_wf {cfg : Config} {e : Enc} (m : Message) (h : e.Wf cfg) :
    (e.addMessage cfg m).1.Wf cfg := by
  rcases Nat.lt_or_ge e.count cfg.encMaxMsgs with hc | hc
  · rw [Enc.addMessage_accepted m h.2.1 hc]
    refine ⟨hc, ?_, h.2.2.1, h.2.2.2⟩
    simp only [List.length_append, h.2.1, length_bytes]
    omega
  · rw [Enc.addMessage_rejected m hc]
    exact h

theorem Enc.addBatch_wf {cfg : Config} (ms : List Message) :
    ∀ {e : Enc}, e.Wf cfg → (Enc.addBatch cfg e ms).1.Wf cfg := by
  induction ms with
  | nil => exact fun h => h
  | cons m ms ih => exact fun h => ih (Enc.addMessage_wf m h)

theorem Enc.buildFrame_length_le {cfg : Config} {e : Enc} (h : e.Wf cfg) :
    (e.buildFrame cfg).length ≤ cfg.encOutCap := by
  have := length_stuffAll_le cfg (e.pending ++ [countByte e.count] ++ [e.checksum cfg])
  rw [Enc.pending_eq h.2.1] at this
  simp only [Enc.buildFrame, escapedFrame, Params.encOutCap, Enc.pending_eq h.2.1, List.length_cons,
    List.length_append, List.length_nil, h.2.1] at *
  omega

theorem Enc.finalize_wf {cfg : Config} {e : Enc} (h : e.Wf cfg) : (e.finalize cfg).Wf cfg := by
  simp [Enc.Wf, Enc.buildFrame_length_le h]

theorem Enc.encode_wf {cfg : Config} {e : Enc} (ms : List Message) (h : e.Wf cfg) :
    (e.encode cfg ms).Wf cfg :=
  Enc.finalize_wf (Enc.addBatch_wf ms (Enc.workReset_wf h))

theorem Dec.powerOn_wf (cfg : Config) : Dec.powerOn.Wf cfg := by simp [Dec.Wf]

theorem Dec.workReset_wf (cfg : Config) (d : Dec) : d.workReset.Wf cfg := by simp [Dec.Wf]

theorem Dec.append_wf {cfg : Config} {d : Dec} (x : Byte) (h : d.Wf cfg) :
    (d.append cfg x).1.Wf cfg := by
  rcases Nat.lt_or_ge d.len cfg.decCap with hc | hc
  · rw [Dec.append_fits x h.1 hc]
    exact ⟨by simp [h.1], hc⟩
  · rw [Dec.append_overruns x hc]
    exact Dec.workReset_wf cfg d

theorem Dec.frameEnd_wf {cfg : Config} (d : Dec) : (d.frameEnd cfg).1.Wf cfg := by
  unfold Dec.frameEnd
  simp only
  split <;> simp [Dec.Wf]

theorem Dec.feed_wf {cfg : Config} {d : Dec} (b : Byte) (h : d.Wf cfg) :
    (d.feed cfg b).1.Wf cfg := by
  unfold Dec.feed
  split
  · simp [Dec.awaitStart, Dec.Wf]
  · exact h
  · simp [Dec.frameStart, Dec.Wf]
  · exact h
  · exact Dec.frameEnd_wf d
  · exact Dec.append_wf b h
  · exact Dec.append_wf (d := { d with esc := false }) _ h
  · exact Dec.workReset_wf cfg d

theorem Dec.feedAll_wf {cfg : Config} (bs : List Byte) :
    ∀ {d : Dec}, d.Wf cfg → (Dec.feedAll cfg d bs).1.Wf cfg := by
  induction bs with
  | nil => exact fun h => h
  | cons b bs ih => exact fun h => ih (Dec.feed_wf b h)

end Sys2Proof.Machine
end

