-- ==== Sys2Proof/Laws/Decoder.lean ====
section
/-! SUPPORT. What FEED can do: the row each context and byte selects, the result of each row, validation, and feed_all
(R181 to R189, R220). -/

namespace Sys2Proof.Machine

variable {cfg : Config} {d : Dec} {b : Byte}

/-! ### selectRow -/

theorem selectRow_awaiting {ctx : DecContext} (h : ctx.state = .awaitingStart) :
    selectRow cfg ctx b = if b = cfg.startByte then .awaitStart else .awaitOther := by
  simp [selectRow, h]

theorem selectRow_start {ctx : DecContext} (h : ctx.state = .inFrame) :
    selectRow cfg ctx cfg.startByte = .frameStart := by
  simp [selectRow, h]

theorem selectRow_escape {ctx : DecContext} (h : ctx.state = .inFrame) :
    selectRow cfg ctx cfg.escapeByte = .frameEscape := by
  simp [selectRow, h]

theorem selectRow_end {ctx : DecContext} (h : ctx.state = .inFrame) :
    selectRow cfg ctx cfg.endByte = .frameEnd := by
  simp [selectRow, h]

theorem selectRow_data {ctx : DecContext} (h : ctx.state = .inFrame) (hb : b ∉ cfg.reserved) :
    selectRow cfg ctx b =
      if ctx.full then .frameOverrun else if ctx.esc then .frameEscdata else .frameData := by
  simp [selectRow, h, classify_data cfg hb]

/-- The rows that fix their byte (R182, R184 to R186). -/
theorem selectRow_fixes_byte (ctx : DecContext) :
    (selectRow cfg ctx b = .awaitStart → b = cfg.startByte) ∧
    (selectRow cfg ctx b = .frameStart → b = cfg.startByte) ∧
    (selectRow cfg ctx b = .frameEscape → b = cfg.escapeByte) ∧
    (selectRow cfg ctx b = .frameEnd → b = cfg.endByte) := by
  unfold selectRow classify
  grind

/-! ### FEED, row by row -/

theorem feed_awaitStart (h : d.state = .awaitingStart) :
    d.feed cfg cfg.startByte = d.awaitStart := by
  simp [Dec.feed, selectRow_awaiting (ctx := d.context cfg) h]

theorem feed_awaitOther (h : d.state = .awaitingStart) (hb : b ≠ cfg.startByte) :
    d.feed cfg b = d.awaitOther := by
  simp [Dec.feed, selectRow_awaiting (ctx := d.context cfg) h, hb]

theorem feed_frameStart (h : d.state = .inFrame) : d.feed cfg cfg.startByte = d.frameStart := by
  simp [Dec.feed, selectRow_start (ctx := d.context cfg) h]

theorem feed_frameEscape (h : d.state = .inFrame) :
    d.feed cfg cfg.escapeByte = d.frameEscape := by
  simp [Dec.feed, selectRow_escape (ctx := d.context cfg) h]

theorem feed_frameEnd (h : d.state = .inFrame) : d.feed cfg cfg.endByte = d.frameEnd cfg := by
  simp [Dec.feed, selectRow_end (ctx := d.context cfg) h]

theorem feed_frameData (h : d.state = .inFrame) (hb : b ∉ cfg.reserved) (he : d.esc = false)
    (hl : d.len < cfg.decCap) : d.feed cfg b = d.frameData cfg b := by
  simp [Dec.feed, selectRow_data (ctx := d.context cfg) h hb, he, Nat.not_le.2 hl]

theorem feed_frameEscdata (h : d.state = .inFrame) (hb : b ∉ cfg.reserved) (he : d.esc = true)
    (hl : d.len < cfg.decCap) : d.feed cfg b = d.frameEscdata cfg b := by
  simp [Dec.feed, selectRow_data (ctx := d.context cfg) h hb, he, Nat.not_le.2 hl]

theorem feed_frameOverrun (h : d.state = .inFrame) (hb : b ∉ cfg.reserved)
    (hl : cfg.decCap ≤ d.len) : d.feed cfg b = d.frameOverrun := by
  simp [Dec.feed, selectRow_data (ctx := d.context cfg) h hb, hl]

/-- Everything FEED can do: one of the eight rows, with its conditions (R181). -/
theorem feed_cases (cfg : Config) (d : Dec) (b : Byte) :
    (d.state = .awaitingStart ∧ b = cfg.startByte ∧ d.feed cfg b = d.awaitStart) ∨
    (d.state = .awaitingStart ∧ b ≠ cfg.startByte ∧ d.feed cfg b = d.awaitOther) ∨
    (d.state = .inFrame ∧ b = cfg.startByte ∧ d.feed cfg b = d.frameStart) ∨
    (d.state = .inFrame ∧ b = cfg.escapeByte ∧ d.feed cfg b = d.frameEscape) ∨
    (d.state = .inFrame ∧ b = cfg.endByte ∧ d.feed cfg b = d.frameEnd cfg) ∨
    (d.state = .inFrame ∧ b ∉ cfg.reserved ∧ d.esc = false ∧ d.len < cfg.decCap ∧
      d.feed cfg b = d.frameData cfg b) ∨
    (d.state = .inFrame ∧ b ∉ cfg.reserved ∧ d.esc = true ∧ d.len < cfg.decCap ∧
      d.feed cfg b = d.frameEscdata cfg b) ∨
    (d.state = .inFrame ∧ b ∉ cfg.reserved ∧ cfg.decCap ≤ d.len ∧
      d.feed cfg b = d.frameOverrun) := by
  rcases hs : d.state with _ | _
  · by_cases hb : b = cfg.startByte
    · exact .inl ⟨rfl, hb, hb ▸ feed_awaitStart hs⟩
    · exact .inr (.inl ⟨rfl, hb, feed_awaitOther hs hb⟩)
  · by_cases hr : b ∈ cfg.reserved
    · rcases mem_reserved.1 hr with hb | hb | hb
      · exact .inr (.inr (.inl ⟨rfl, hb, hb ▸ feed_frameStart hs⟩))
      · exact .inr (.inr (.inr (.inr (.inl ⟨rfl, hb, hb ▸ feed_frameEnd hs⟩))))
      · exact .inr (.inr (.inr (.inl ⟨rfl, hb, hb ▸ feed_frameEscape hs⟩)))
    · rcases Nat.lt_or_ge d.len cfg.decCap with hl | hl
      · rcases he : d.esc with _ | _
        · exact .inr (.inr (.inr (.inr (.inr (.inl
            ⟨rfl, hr, rfl, hl, feed_frameData hs hr he hl⟩)))))
        · exact .inr (.inr (.inr (.inr (.inr (.inr (.inl
            ⟨rfl, hr, rfl, hl, feed_frameEscdata hs hr he hl⟩))))))
      · exact .inr (.inr (.inr (.inr (.inr (.inr (.inr
          ⟨rfl, hr, hl, feed_frameOverrun hs hr hl⟩))))))

/-! ### Validation -/

/-- The tail of a frame written out (R108). -/
@[simp] theorem frameTail_append (body : List Byte) (count chk : Byte) :
    frameTail (body ++ [count, chk]) = some (count, chk) := by
  simp [frameTail]

theorem frameTail_short {f : List Byte} (h : f.length < 2) : frameTail f = none := by
  match f, h with
  | [], _ => rfl
  | [_], _ => rfl

/-- A frame of at least two bytes has a body, a COUNT byte and a checksum byte. -/
theorem exists_tail {f : List Byte} (h : 2 ≤ f.length) :
    ∃ body count chk, f = body ++ [count, chk] := by
  rcases List.eq_nil_or_concat f with rfl | ⟨g, chk, rfl⟩
  · simp at h
  · rcases List.eq_nil_or_concat g with rfl | ⟨body, count, rfl⟩
    · simp at h
    · exact ⟨body, count, chk, by simp⟩

/-- What the first message of a frame is (R214). -/
theorem firstMessageOf_append (m : Message) (l : List Byte) :
    firstMessageOf (m.bytes ++ l) = some m := by
  simp [firstMessageOf, Message.bytes, messageOfBytes]

/-! ### FEED.FRAME.END -/

/-- The registers FEED.FRAME.END leaves, whatever the verdict (R186, R217, R219). -/
theorem frameEnd_eq (cfg : Config) (d : Dec) :
    d.frameEnd cfg =
      ({ d.workReset with
          last := match (validate cfg d.frame).2 with | some m => some m | none => d.last },
        (validate cfg d.frame).1) := by
  unfold Dec.frameEnd
  simp only
  split <;> simp_all [Dec.workReset]

/-! ### feed_all -/

@[simp] theorem feedAll_nil (cfg : Config) (d : Dec) : Dec.feedAll cfg d [] = (d, []) := rfl

theorem feedAll_cons (cfg : Config) (d : Dec) (b : Byte) (bs : List Byte) :
    Dec.feedAll cfg d (b :: bs) =
      ((Dec.feedAll cfg (d.feed cfg b).1 bs).1,
        (d.feed cfg b).2 :: (Dec.feedAll cfg (d.feed cfg b).1 bs).2) := rfl

theorem feedAll_append (cfg : Config) (bs cs : List Byte) : ∀ d : Dec,
    Dec.feedAll cfg d (bs ++ cs) =
      ((Dec.feedAll cfg (Dec.feedAll cfg d bs).1 cs).1,
        (Dec.feedAll cfg d bs).2 ++ (Dec.feedAll cfg (Dec.feedAll cfg d bs).1 cs).2) := by
  induction bs with
  | nil => simp
  | cons b bs ih => intro d; simp [feedAll_cons, ih]

theorem feedAll_events_length (cfg : Config) (bs : List Byte) : ∀ d : Dec,
    (Dec.feedAll cfg d bs).2.length = bs.length := by
  induction bs with
  | nil => simp
  | cons b bs ih => intro d; simp [feedAll_cons, ih]

end Sys2Proof.Machine
end

