-- ==== Sys2Proof/Laws/Step.lean ====
section
/-! SUPPORT. What an instruction and a step can do at most: which half an instruction works on, and the cases of a step. -/

namespace Sys2Proof.Machine

/-! ### The meanings, as equations -/

section Meanings

variable (s : State)

/-- What a FEED row answers: its result where R181 selects it, a refusal elsewhere. -/
theorem execRow_next {row : FeedRow} {b : Byte} {result : Dec × DecodeEvent} {s t : State}
    (h : execRow row b result s = .next t) :
    selectRow s.cfg (s.dec.context s.cfg) b = row ∧ t = s.completeDec result.1 (.event result.2) := by
  unfold execRow at h
  split at h
  · cases h; exact ⟨‹_›, rfl⟩
  · cases h

/-- A FEED row answers FEED's result where R181 selects it. -/
theorem exec_instr_of_select {b : Byte} :
    exec ((selectRow s.cfg (s.dec.context s.cfg) b).instr b) s =
      .next (s.completeDec (s.dec.feed s.cfg b).1 (.event (s.dec.feed s.cfg b).2)) := by
  have hb := selectRow_fixes_byte (cfg := s.cfg) (b := b) (s.dec.context s.cfg)
  rcases h : selectRow s.cfg (s.dec.context s.cfg) b
  case awaitStart =>
    have e := hb.1 h; subst e; simp [FeedRow.instr, exec, execFeedAwaitStart, execRow, Dec.feed, h]
  case awaitOther => simp [FeedRow.instr, exec, execFeedAwaitOther, execRow, Dec.feed, h]
  case frameStart =>
    have e := hb.2.1 h; subst e; simp [FeedRow.instr, exec, execFeedFrameStart, execRow, Dec.feed, h]
  case frameEscape =>
    have e := hb.2.2.1 h; subst e; simp [FeedRow.instr, exec, execFeedFrameEscape, execRow, Dec.feed, h]
  case frameEnd =>
    have e := hb.2.2.2 h; subst e; simp [FeedRow.instr, exec, execFeedFrameEnd, execRow, Dec.feed, h]
  case frameData => simp [FeedRow.instr, exec, execFeedFrameData, execRow, Dec.feed, h]
  case frameEscdata => simp [FeedRow.instr, exec, execFeedFrameEscdata, execRow, Dec.feed, h]
  case frameOverrun => simp [FeedRow.instr, exec, execFeedFrameOverrun, execRow, Dec.feed, h]

end Meanings

/-- Everything an instruction can do: it works on the decoder, on the encoder, or returns a value (R20, R130). -/
theorem exec_cases {i : Instr} {s t : State} (h : exec i s = .next t) :
    (∃ d r, t = s.completeDec d r) ∨ (∃ e r, t = s.completeEnc e r) ∨ (∃ r, t = s.respond r) := by
  cases i
  case encCmdReserved => cases h
  case encReset | addMessage | finalize | addBatch | encodeMessages =>
    cases h; exact .inr (.inl ⟨_, _, rfl⟩)
  case crcInit | crcUpdate | crcFinalize => cases h; exact .inr (.inr ⟨_, rfl⟩)
  case decReset | decodeFirstMessage | feedAll => cases h; exact .inl ⟨_, _, rfl⟩
  all_goals exact .inl ⟨_, _, (execRow_next h).2⟩

/-! ### step -/

theorem step_idle {s : State} (h : s.input = []) : step s = .next s.idle := by
  simp [step, fetch, h]

theorem step_malformed {s : State} {r : Request} {rest : List Request} {e : DecodeError}
    (h : s.input = r :: rest) (hd : decode s.cfg (s.dec.context s.cfg) r = .error e) :
    step s = .refused .malformedCommand := by
  simp [step, fetch, h, hd]

/-- An input byte is one FEED (R181, R192). -/
theorem step_byte {s : State} {b : Byte} {rest : List Request} (h : s.input = .byte b :: rest) :
    step s = .next (({ s with input := rest }).completeDec (s.dec.feed s.cfg b).1
      (.event (s.dec.feed s.cfg b).2)) := by
  have := exec_instr_of_select { s with input := rest } (b := b)
  simp only [step, fetch, h, decode]
  exact this

/-- The result of a step of any kind: waiting, one FEED, the decoder's reset, or an encoder command. -/
theorem step_cases {s t : State} (h : step s = .next t) :
    (s.input = [] ∧ t = s.idle) ∨
    (∃ b rest, s.input = .byte b :: rest ∧
      t = ({ s with input := rest }).completeDec (s.dec.feed s.cfg b).1
        (.event (s.dec.feed s.cfg b).2)) ∨
    (∃ rest, s.input = .decReset :: rest ∧
      t = ({ s with input := rest }).completeDec s.dec.workReset .nothing) ∨
    (∃ code operand rest i, s.input = .command code operand :: rest ∧
      decodeCommand code operand = .ok i ∧ exec i { s with input := rest } = .next t) := by
  rcases hi : s.input with _ | ⟨r, rest⟩
  · rw [step_idle hi] at h; cases h; exact .inl ⟨rfl, rfl⟩
  · rcases r with b | _ | ⟨code, operand⟩
    · rw [step_byte hi] at h; cases h; exact .inr (.inl ⟨b, rest, rfl, rfl⟩)
    · simp only [step, fetch, hi, decode] at h
      cases h
      exact .inr (.inr (.inl ⟨rest, rfl, rfl⟩))
    · refine .inr (.inr (.inr ⟨code, operand, rest, ?_⟩))
      rcases hd : decodeCommand code operand with e | i
      · simp [step, fetch, hi, decode, hd] at h
      · simp only [step, fetch, hi, decode, hd] at h
        exact ⟨i, rfl, rfl, h⟩

/-- The instructions an encoder command decodes to (R105). -/
theorem decodeCommand_cases {code : BitVec 2} {operand : List Byte} {i : Instr}
    (h : decodeCommand code operand = .ok i) :
    (i = .encReset ∧ code = 0b00#2 ∧ operand = []) ∨
    (∃ m, i = .addMessage m ∧ code = 0b01#2 ∧ operand = m.bytes) ∨
    (i = .finalize ∧ code = 0b10#2 ∧ operand = []) ∨
    (i = .encCmdReserved ∧ code = 0b11#2) := by
  unfold decodeCommand at h
  split at h
  · split at h <;> simp_all
  · split at h
    · split at h
      · rename_i m hm
        cases h
        exact .inr (.inl ⟨m, rfl, ‹_›, bytes_of_messageOfBytes hm⟩)
      · cases h
    · split at h
      · split at h <;> simp_all
      · cases h
        refine .inr (.inr (.inr ⟨rfl, ?_⟩))
        revert code
        decide

/-! ### Words of the opcode table -/

theorem decode_eq_of_state {cfg : Config} {c c' : DecContext} {b : Byte}
    (h : c.state = c'.state) (hb : c.state = .awaitingStart ∨ b ∈ cfg.reserved) :
    decode cfg c (.byte b) = decode cfg c' (.byte b) := by
  rcases hb with hs | hb
  · simp [decode, selectRow_awaiting hs, selectRow_awaiting (h ▸ hs)]
  · rcases hs : c.state with _ | _
    · simp [decode, selectRow_awaiting hs, selectRow_awaiting (h ▸ hs)]
    · rcases mem_reserved.1 hb with rfl | rfl | rfl
      · simp [decode, selectRow_start hs, selectRow_start (h ▸ hs)]
      · simp [decode, selectRow_end hs, selectRow_end (h ▸ hs)]
      · simp [decode, selectRow_escape hs, selectRow_escape (h ▸ hs)]

theorem enter_state (ctx : DecContext) (d : Dec) : (d.enter ctx).state = ctx.state := by
  unfold Dec.enter
  split
  · assumption
  · split <;> simp_all

/-- Under the reference configuration a placed word of the opcode table is run by the very next step, as the instruction
`decodeTableWord` reads, with nothing but the decoder's context changed (log 15). -/
theorem step_withFetchWord {s : State} {nbits w : Nat} {i : Instr} (hc : s.cfg = Config.reference)
    (h : decodeTableWord nbits w = some i) :
    step (s.withFetchWord nbits w) =
      exec i { s with dec := s.dec.enterFor (tableRequest nbits w) } := by
  have hd : decode s.cfg ((s.dec.enterFor (tableRequest nbits w)).context s.cfg)
      (tableRequest nbits w) = .ok i := by
    unfold decodeTableWord at h
    rw [hc]
    rcases hr : tableRequest nbits w with b | _ | ⟨code, operand⟩ <;> rw [hr] at h
    · rw [decode_eq_of_state (c' := tableContext b)]
      · revert h; simp only [tableRequestContext]; split <;> simp_all
      · exact enter_state _ _
      · simp only [Dec.enterFor, Dec.context_state, enter_state, tableContext]
        split
        · rename_i hb
          exact .inr (mem_reserved.2 (by rcases hb with rfl | rfl <;> simp))
        · exact .inl rfl
    · revert h; simp [decode]
    · revert h; simp only [decode]; split <;> simp_all
  simp [step, fetch, State.withFetchWord, placeTableWord, hd]

end Sys2Proof.Machine
end

