-- ==== Sys2Proof/Laws/PerInstr.lean ====
section
/-! SUPPORT. One lemma per instruction for the families LAWS.json names. -/

namespace Sys2Proof.Laws.EncodedLength

/-- How many requests an instruction is written as: one for an instruction with an encoding of its own, those of its expansion
for a pseudo-operation (R110, R153, R159), none for a CRC primitive. -/
def Statement (i : Instr) : Prop :=
  ∀ cfg : Config, (encode cfg i).length =
    match i with
    | .addBatch ms => ms.length
    | .encodeMessages ms => ms.length + 2
    | .decodeFirstMessage bytes => bytes.length
    | .feedAll bytes => bytes.length
    | j => if j.hasEncoding then 1 else 0

theorem feedAwaitStart : Statement .feedAwaitStart := fun _ => rfl
theorem feedAwaitOther (b : Byte) : Statement (.feedAwaitOther b) := fun _ => rfl
theorem feedFrameStart : Statement .feedFrameStart := fun _ => rfl
theorem feedFrameEscape : Statement .feedFrameEscape := fun _ => rfl
theorem feedFrameEnd : Statement .feedFrameEnd := fun _ => rfl
theorem feedFrameData (b : Byte) : Statement (.feedFrameData b) := fun _ => rfl
theorem feedFrameEscdata (b : Byte) : Statement (.feedFrameEscdata b) := fun _ => rfl
theorem feedFrameOverrun (b : Byte) : Statement (.feedFrameOverrun b) := fun _ => rfl
theorem decReset : Statement .decReset := fun _ => rfl
theorem encReset : Statement .encReset := fun _ => rfl
theorem addMessage (m : Message) : Statement (.addMessage m) := fun _ => rfl
theorem finalize : Statement .finalize := fun _ => rfl
theorem encCmdReserved : Statement .encCmdReserved := fun _ => rfl
theorem addBatch (ms : List Message) : Statement (.addBatch ms) := fun _ => by simp [encode]
theorem encodeMessages (ms : List Message) : Statement (.encodeMessages ms) :=
  fun _ => by simp [encode]
theorem decodeFirstMessage (bytes : List Byte) : Statement (.decodeFirstMessage bytes) :=
  fun _ => by simp [encode]
theorem feedAll (bytes : List Byte) : Statement (.feedAll bytes) := fun _ => by simp [encode]
theorem crcInit : Statement .crcInit := fun _ => rfl
theorem crcUpdate (acc : Byte) (bytes : List Byte) : Statement (.crcUpdate acc bytes) :=
  fun _ => rfl
theorem crcFinalize (acc : Byte) : Statement (.crcFinalize acc) := fun _ => rfl

end Sys2Proof.Laws.EncodedLength
end

