-- ==== Sys2Proof/Laws/Run.lean ====
section
/-! SUPPORT. What a run is made of (R274): the equations of Enc.run and Dec.run, and the step that serves one command of a trace or
one input byte. -/

namespace Sys2Proof.Machine

/-! ### Runs of one instance -/

section

variable (cfg : Config) (e : Enc) (d : Dec) (m : Message)

@[simp] theorem Enc.command_reset : e.command cfg .reset = (e.workReset cfg, .ok) := rfl

@[simp] theorem Enc.command_addMessage : e.command cfg (.addMessage m) = e.addMessage cfg m := rfl

@[simp] theorem Enc.command_finalize : e.command cfg .finalize = (e.finalize cfg, .ok) := rfl

@[simp] theorem Enc.outputAfter_reset : e.outputAfter .reset = [] := rfl

@[simp] theorem Enc.outputAfter_addMessage : e.outputAfter (.addMessage m) = [] := rfl

@[simp] theorem Enc.outputAfter_finalize : e.outputAfter .finalize = [(e.readOut, e.outLen)] := rfl

@[simp] theorem Enc.run_nil : Enc.run cfg e [] = ⟨[], [], e⟩ := rfl

theorem Enc.run_cons (c : EncCommand) (cs : List EncCommand) :
    Enc.run cfg e (c :: cs) =
      { statuses := (e.command cfg c).2 :: (Enc.run cfg (e.command cfg c).1 cs).statuses
        frames := (e.command cfg c).1.outputAfter c ++ (Enc.run cfg (e.command cfg c).1 cs).frames
        final := (Enc.run cfg (e.command cfg c).1 cs).final } := rfl

@[simp] theorem Dec.run_nil : Dec.run cfg d [] = ⟨[], d⟩ := rfl

theorem Dec.run_cons (b : Byte) (bytes : List Byte) :
    Dec.run cfg d (b :: bytes) =
      { events := (d.feed cfg b).2 :: (Dec.run cfg (d.feed cfg b).1 bytes).events
        final := (Dec.run cfg (d.feed cfg b).1 bytes).final } := rfl

end

/-! ### Steps of the machine -/

/-- Everything the step that serves a command of a trace does: it completes, with the encoder and the status of the command, the
output of a FINALIZE, and nothing else changed. -/
theorem step_command {s : State} {c : EncCommand} {rest : List Request}
    (h : s.input = c.request :: rest) :
    ∃ r, step s = .next (({ s with input := rest }).completeEnc (s.enc.command s.cfg c).1 r) ∧
      r.status? = some (s.enc.command s.cfg c).2 ∧
      r.frame?.toList = (s.enc.command s.cfg c).1.outputAfter c := by
  cases c with
  | reset => exact ⟨_, by simp only [step, fetch, h]; rfl, rfl, rfl⟩
  | addMessage m => exact ⟨_, by simp only [step, fetch, h]; rfl, rfl, rfl⟩
  | finalize => exact ⟨_, by simp only [step, fetch, h]; rfl, rfl, rfl⟩

@[simp] theorem traceSteps_zero (s : State) : traceSteps 0 s = .next (s, []) := rfl

theorem traceSteps_succ {n : Nat} {s t : State} {u : State × List Response}
    (h : step s = .next t) (hn : traceSteps n t = .next u) :
    traceSteps (n + 1) s = .next (u.1, t.resp :: u.2) := by
  simp only [traceSteps, h, hn]

end Sys2Proof.Machine
end

