-- ==== Sys2Proof/Tests/Slice0.lean ====
section
/-! SUPPORT. Tests against the vectors of spec/95_test_vectors.md and hand readings of the encodings, and for every statement with
hypotheses a state that meets them together. -/

namespace Sys2Proof.Tests

set_option maxRecDepth 20000

open Sys2Proof Sys2Proof.Machine

/-! ### Helpers -/

/-- A decoder inside a frame. -/
def inFrame (buf : List Byte) (esc : Bool) : Dec :=
  { state := .inFrame, esc := esc, buf := buf, len := buf.length, last := none }

/-- An encoder with pending messages, its accumulator as R25 has it, and no output yet. -/
def pending (cfg : Config) (ms : List Message) : Enc :=
  { pend := ms.flatMap Message.bytes, count := ms.length,
    acc := Sys2Proof.Machine.crcUpdate cfg (Sys2Proof.Machine.crcInit cfg) (ms.flatMap Message.bytes),
    out := [], outLen := 0 }

/-- DEC_CAP = 8, as in V-D25 to V-D27. -/
def cap8 : Config := { toParams := { Params.reference with decCap := 8 }, ok := by decide }

/-- ENC_FRAME_CAP = 9, so ENC_MAX_MSGS = 1 (R7). -/
def oneMessage : Config := { toParams := { Params.reference with encFrameCap := 9 }, ok := by decide }

/-- CRC-8/ROHC, V-C19. -/
def rohc : Config :=
  { toParams := { Params.reference with crcInitVal := 0xFF, crcRefin := true, crcRefout := true },
    ok := by decide }

/-- CRC-8/I-432-1, V-C20. -/
def i432 : Config := { toParams := { Params.reference with crcXorout := 0x55 }, ok := by decide }

/-- The reset machine with another decoder. -/
def withDec (cfg : Config) (d : Dec) : State := { State.powerOn cfg with dec := d }

/-- The reset machine with another encoder. -/
def withEnc (cfg : Config) (e : Enc) : State := { State.powerOn cfg with enc := e }

/-- The next state of an outcome, if it is one. -/
def nextOf : Host.Outcome State Fault Refusal → Option State
  | .next t => some t
  | .fault _ => none
  | .refused _ => none

/-- The Message of V-E1, the source's command 5 and value -100. -/
def m1 : Message := ⟨0x05, 0x9C, 0xFF, 0xFF, 0xFF⟩

/-- The buffered frame of V-D1 at its END. -/
def f1 : List Byte := [0x05, 0x9C, 0xFF, 0xFF, 0xFF, 0x01, 0x94]

/-- The escaped frame of V-E1. -/
def w1 : List Byte := [0x0D, 0x05, 0x9C, 0xFF, 0xFF, 0xFF, 0x01, 0x94, 0x0A]

/-- A frame is open at its first byte. -/
def opened : State := withDec .reference (inFrame [] false)

/-- A message is pending. -/
def loaded : State := withEnc .reference (pending .reference [m1])

/-- The only message that fits is pending. -/
def full : State := withEnc oneMessage (pending oneMessage [m1])

/-- The decoder's buffer is full (V-D25). -/
def overfull : State := withDec cap8 (inFrame (List.replicate 8 0x11) false)

/-! ### Well-formedness: each check refuses an ill-formed term -/

theorem test_wf_refuses_start_as_other : Instr.wellFormed .reference (.feedAwaitOther 0x0D) = false := by
  decide

theorem test_wf_accepts_end_as_other : Instr.wellFormed .reference (.feedAwaitOther 0x0A) = true := by
  decide

theorem test_wf_refuses_reserved_data :
    ∀ b ∈ [0x0D#8, 0x0A#8, 0x1B#8], Instr.wellFormed .reference (.feedFrameData b) = false := by decide

theorem test_wf_refuses_reserved_escdata :
    ∀ b ∈ [0x0D#8, 0x0A#8, 0x1B#8], Instr.wellFormed .reference (.feedFrameEscdata b) = false := by
  decide

theorem test_wf_refuses_reserved_overrun :
    ∀ b ∈ [0x0D#8, 0x0A#8, 0x1B#8], Instr.wellFormed .reference (.feedFrameOverrun b) = false := by
  decide

/-- R7: ENC_MAX_MSGS is 39 with the reference capacity. -/
theorem test_wf_bounds_encode :
    Instr.wellFormed .reference (.encodeMessages (List.replicate 39 m1)) = true ∧
      Instr.wellFormed .reference (.encodeMessages (List.replicate 40 m1)) = false := by decide

theorem test_config_refuses_equal_reserved :
    Config.ofParams? { Params.reference with endByte := 0x0D } = none := by decide

/-- R6 (b): 0x0D and 0xF2 are complements. -/
theorem test_config_refuses_complements :
    Config.ofParams? { Params.reference with endByte := 0xF2 } = none := by decide

theorem test_config_refuses_small_frame_cap :
    Config.ofParams? { Params.reference with encFrameCap := 3 } = none := by decide

/-- R7: ENC_MAX_MSGS = 256 does not fit the COUNT byte. -/
theorem test_config_refuses_large_frame_cap :
    Config.ofParams? { Params.reference with encFrameCap := 1284 } = none ∧
      (Config.ofParams? { Params.reference with encFrameCap := 1283 }).isSome = true := by decide

theorem test_config_refuses_small_dec_cap :
    Config.ofParams? { Params.reference with decCap := 1 } = none := by decide

theorem test_config_refuses_zero_poly :
    Config.ofParams? { Params.reference with crcPoly := 0 } = none := by decide

/-! ### Decoding: words written out from opcode_table.json and R102, R105 -/

/-- The FEED rows outside a frame: START is 0x0D = 0b00001101; every other byte, END included, is FEED.AWAIT.OTHER. -/
theorem test_decode_await :
    decode .reference ⟨.awaitingStart, false, false⟩ (.byte 0b00001101#8) = .ok .feedAwaitStart ∧
    decode .reference ⟨.awaitingStart, true, true⟩ (.byte 0b00001010#8) = .ok (.feedAwaitOther 0x0A) :=
  ⟨rfl, rfl⟩

/-- The FEED rows of the reserved values inside a frame, with an escape pending and a full buffer. -/
theorem test_decode_frame_reserved :
    decode .reference ⟨.inFrame, true, true⟩ (.byte 0b00001101#8) = .ok .feedFrameStart ∧
    decode .reference ⟨.inFrame, true, true⟩ (.byte 0b00011011#8) = .ok .feedFrameEscape ∧
    decode .reference ⟨.inFrame, true, true⟩ (.byte 0b00001010#8) = .ok .feedFrameEnd :=
  ⟨rfl, rfl, rfl⟩

/-- The FEED rows of DATA bytes; a full buffer goes before a pending escape (R181, R189). -/
theorem test_decode_frame_data :
    decode .reference ⟨.inFrame, false, false⟩ (.byte 0b11110010#8) = .ok (.feedFrameData 0xF2) ∧
    decode .reference ⟨.inFrame, true, false⟩ (.byte 0b11110010#8) = .ok (.feedFrameEscdata 0xF2) ∧
    decode .reference ⟨.inFrame, true, true⟩ (.byte 0b11110010#8) = .ok (.feedFrameOverrun 0xF2) :=
  ⟨rfl, rfl, rfl⟩

/-- The commands of R105 and DEC_RESET, which is no input byte (R180). -/
theorem test_decode_commands :
    decode .reference ⟨.inFrame, false, false⟩ .decReset = .ok .decReset ∧
    decode .reference ⟨.inFrame, false, false⟩ (.command 0b00#2 []) = .ok .encReset ∧
    decode .reference ⟨.inFrame, false, false⟩ (.command 0b01#2 [0x05, 0x9C, 0xFF, 0xFF, 0xFF]) =
      .ok (.addMessage m1) ∧
    decode .reference ⟨.inFrame, false, false⟩ (.command 0b10#2 []) = .ok .finalize ∧
    decode .reference ⟨.inFrame, false, false⟩ (.command 0b11#2 []) = .ok .encCmdReserved :=
  ⟨rfl, rfl, rfl, rfl, rfl⟩

/-- A command with another number of operand bytes is no command of R105. -/
theorem test_decode_rejects_operand_lengths :
    decode .reference ⟨.inFrame, false, false⟩ (.command 0b00#2 [0x00]) =
      .error (.operandLength 0b00 1) ∧
    decode .reference ⟨.inFrame, false, false⟩ (.command 0b01#2 [0x05, 0x9C, 0xFF, 0xFF]) =
      .error (.operandLength 0b01 4) ∧
    decode .reference ⟨.inFrame, false, false⟩ (.command 0b10#2 [0x00]) =
      .error (.operandLength 0b10 1) := ⟨rfl, rfl, rfl⟩

/-- The pseudo-operations are written as their expansions (R110, R153, R159), the CRC primitives have no encoding. -/
theorem test_encode_expansions :
    encode .reference (.addBatch [m1]) = [.command 0b01 [0x05, 0x9C, 0xFF, 0xFF, 0xFF]] ∧
    encode .reference (.encodeMessages [m1]) =
      [.command 0b00 [], .command 0b01 [0x05, 0x9C, 0xFF, 0xFF, 0xFF], .command 0b10 []] ∧
    encode .reference (.feedAll [0x0D, 0x0A]) = [.byte 0x0D, .byte 0x0A] ∧
    encode .reference (.decodeFirstMessage [0x0D]) = [.byte 0x0D] ∧
    encode .reference .crcInit = [] := by decide

/-- The table's words: the input bytes, the 2-bit commands, and the 42-bit ADD_MESSAGE with its first operand byte highest. -/
theorem test_table_words :
    decodeTableWord 8 0x0D = some .feedAwaitStart ∧ decodeTableWord 8 0x1B = some .feedFrameEscape ∧
    decodeTableWord 8 0x0A = some .feedFrameEnd ∧ decodeTableWord 8 0x41 = some (.feedAwaitOther 0x41) ∧
    decodeTableWord 2 0 = some .encReset ∧ decodeTableWord 2 2 = some .finalize ∧
    decodeTableWord 2 3 = some .encCmdReserved ∧
    decodeTableWord 48 0x1059CFFFFFF = some (.addMessage m1) := by decide

/-- A table word placed is the very next instruction run, in the context its row needs. -/
theorem test_withFetchWord_runs :
    step (State.reset.withFetchWord 8 0x0D) = exec .feedAwaitStart State.reset ∧
    step (State.reset.withFetchWord 8 0x0A) = exec .feedFrameEnd opened ∧
    step (State.reset.withFetchWord 2 2) = exec .finalize State.reset := ⟨rfl, rfl, rfl⟩

/-! ### The decoder (2.4 and 2.5 of the test vectors) -/

/-- V-D1, first byte. -/
theorem test_feedAwaitStart :
    (nextOf (exec .feedAwaitStart State.reset)).map (fun t => (t.resp, t.dec)) =
      some (.event .frameStarted, inFrame [] false) := by decide

/-- V-D6: END and ESCAPE values outside a frame are noise. -/
theorem test_feedAwaitOther :
    (nextOf (exec (.feedAwaitOther 0x0A) State.reset)).map (fun t => (t.resp, t.dec)) =
      some (.event .waiting, Dec.powerOn) := by decide

/-- V-D19: START with an escape pending resynchronises and clears the flag. -/
theorem test_feedFrameStart :
    (nextOf (exec .feedFrameStart (withDec .reference (inFrame [0x05] true)))).map
      (fun t => (t.resp, t.dec)) = some (.event .frameRestarted, inFrame [] false) := by decide

/-- V-D26: ESCAPE on a full buffer writes nothing. -/
theorem test_feedFrameEscape :
    (nextOf (exec .feedFrameEscape overfull)).map (fun t => (t.resp, t.dec.esc, t.dec.len)) =
      some (.event .escapePending, true, 8) := by decide

/-- V-D1, last byte. -/
theorem test_feedFrameEnd_valid :
    (nextOf (exec .feedFrameEnd (withDec .reference (inFrame f1 false)))).map
      (fun t => (t.resp, t.dec.state, t.dec.len, t.dec.last)) =
      some (.event (.validMessage (some m1)), .awaitingStart, 0, some m1) := by decide

/-- V-D24: the checksum is right, the length is not, and the length goes first. -/
theorem test_feedFrameEnd_length_first :
    (nextOf (exec .feedFrameEnd (withDec .reference
      (inFrame [0x01, 0x02, 0x03, 0x04, 0x05, 0x02, 0x33] false)))).map
      (fun t => (t.resp, t.dec)) = some (.event (.invalidMessage .lengthError), Dec.powerOn) := by decide

/-- V-D33: with DEC_CAP = 8, the byte that fills the buffer is still appended. -/
theorem test_feedFrameData :
    (nextOf (exec (.feedFrameData 0x94) (withDec cap8 (inFrame (List.replicate 7 0x11) false)))).map
      (fun t => (t.resp, t.dec.buf.getLast?, t.dec.len)) = some (.event .byteAppended, some 0x94, 8) := by
  decide

/-- V-D22: the non-canonical escape 1B 00 appends FF and clears the flag. -/
theorem test_feedFrameEscdata :
    (nextOf (exec (.feedFrameEscdata 0x00) (withDec .reference (inFrame [] true)))).map
      (fun t => (t.resp, t.dec)) = some (.event .byteAppended, inFrame [0xFF] false) := by decide

/-- V-D25: the ninth data byte does not fit. -/
theorem test_feedFrameOverrun :
    (nextOf (exec (.feedFrameOverrun 0x11) overfull)).map (fun t => (t.resp, t.dec)) =
      some (.event (.invalidMessage .capacityOverrun), Dec.powerOn) := by decide

/-- V-D39: no event, the frame in progress is gone. -/
theorem test_decReset :
    (nextOf (exec .decReset (withDec .reference (inFrame [0x05, 0x9C] true)))).map
      (fun t => (t.resp, t.dec)) = some (.nothing, Dec.powerOn) := by decide

/-! ### The encoder (2.3 of the test vectors) -/

/-- V-E13: the reset discards the pending message and restarts the accumulator. -/
theorem test_encReset :
    (nextOf (exec .encReset loaded)).map (fun t => (t.resp, t.enc.count, t.enc.pend, t.enc.acc)) =
      some (.status .ok, 0, [], 0x00) := by decide

/-- V-E1, V-C10: the accumulator is 5C. -/
theorem test_addMessage :
    (nextOf (exec (.addMessage m1) State.reset)).map (fun t => (t.resp, t.enc.count, t.enc.pend, t.enc.acc)) =
      some (.status .ok, 1, [0x05, 0x9C, 0xFF, 0xFF, 0xFF], 0x5C) := by decide

/-- R152, as in V-E11: at capacity nothing changes. -/
theorem test_addMessage_at_capacity :
    (nextOf (exec (.addMessage ⟨1, 2, 3, 4, 5⟩) full)).map (fun t => (t.resp, t.enc)) =
      some (.status .capacityOverrun, full.enc) := by decide

/-- V-E1. -/
theorem test_finalize :
    (nextOf (exec .finalize loaded)).map (fun t => (t.resp, t.enc.out, t.enc.outLen, t.enc.count)) =
      some (.frame .ok w1 9, w1, 9, 0) := by decide

/-- V-E5a: the checksum 0A is END, and is stuffed. -/
theorem test_finalize_stuffs_checksum :
    (nextOf (exec .finalize (withEnc .reference (pending .reference [⟨0x43, 0, 0, 0, 0⟩])))).map
      (fun t => t.enc.out) = some [0x0D, 0x43, 0x00, 0x00, 0x00, 0x00, 0x01, 0x1B, 0xF5, 0x0A] := by decide

/-- R105: no step. -/
theorem test_encCmdReserved : exec .encCmdReserved State.reset = .refused .reservedCommand := rfl

/-! ### The pseudo-operations and the CRC unit -/

/-- V-E16 with a smaller capacity: what does not fit is rejected on its own. -/
theorem test_addBatch :
    (nextOf (exec (.addBatch [m1, ⟨1, 2, 3, 4, 5⟩]) (State.powerOn oneMessage))).map
      (fun t => (t.resp, t.enc.count)) = some (.statuses [.ok, .capacityOverrun], 1) := by decide

/-- V-E4, from an encoder that already holds another message. -/
theorem test_encode :
    (nextOf (exec (.encodeMessages [⟨0x01, 0x11, 0x22, 0x33, 0x44⟩, ⟨0x02, 0xF2, 0xF5, 0xE4, 0x00⟩])
      loaded)).map (fun t => t.resp) =
      some (.encoded (some [0x0D, 0x01, 0x11, 0x22, 0x33, 0x44, 0x02, 0xF2, 0xF5, 0xE4, 0x00, 0x02, 0xFF,
        0x0A])) := by decide

/-- V-D2. -/
theorem test_decodeFirstMessage :
    (nextOf (exec (.decodeFirstMessage
      [0x0D, 0x1B, 0xF2, 0x1B, 0xF5, 0x1B, 0xE4, 0x00, 0xFF, 0x01, 0x22, 0x0A]) opened)).map
      (fun t => t.resp) = some (.firstMessage (some ⟨0x0D, 0x0A, 0x1B, 0x00, 0xFF⟩)) := by decide

/-- V-D21. -/
theorem test_feedAll :
    (nextOf (exec (.feedAll [0x0D, 0x1B, 0x1B, 0xF2, 0x00, 0x00, 0x0A]) State.reset)).map
      (fun t => t.resp) = some (.events [.frameStarted, .escapePending, .escapePending, .byteAppended,
        .byteAppended, .byteAppended, .invalidMessage .lengthError]) := by decide

/-- V-E14: two FINALIZE commands give the pending frame, then the zero-message frame (R274). -/
theorem test_encoder_run :
    Enc.run .reference (Enc.powerOn .reference) [.addMessage m1, .finalize, .finalize] =
      { statuses := [.ok, .ok, .ok], frames := [(w1, 9), ([0x0D, 0x00, 0x00, 0x0A], 4)],
        final := { Enc.powerOn .reference with out := [0x0D, 0x00, 0x00, 0x0A], outLen := 4 } } := by decide

/-- V-D22: a run that ends inside a frame (R274). -/
theorem test_decoder_run :
    Dec.run .reference Dec.powerOn [0x0D, 0x1B, 0x00] =
      { events := [.frameStarted, .escapePending, .byteAppended], final := inFrame [0xFF] false } := by decide

/-- V-C19, V-C1. -/
theorem test_crcInit :
    (nextOf (exec .crcInit (State.powerOn rohc))).map (fun t => t.resp) = some (.accumulator 0xFF) := by
  decide

/-- V-C11. -/
theorem test_crcUpdate :
    (nextOf (exec (.crcUpdate 0x5C [0x01]) State.reset)).map (fun t => t.resp) =
      some (.accumulator 0x94) := by decide

/-- V-C19: input reflection. -/
theorem test_crc8_rohc :
    crc8 rohc [0x31, 0x32, 0x33, 0x34, 0x35, 0x36, 0x37, 0x38, 0x39] = 0xD0 := by decide

/-- V-C20: of the empty sequence, CRC_XOROUT. -/
theorem test_crcFinalize :
    (nextOf (exec (.crcFinalize 0x00) (State.powerOn i432))).map (fun t => t.resp) =
      some (.checksum 0x55) := by decide

/-- V-C19: output reflection, computed by hand (1 is the mirror of 80). -/
theorem test_crcFinalize_reflects :
    (nextOf (exec (.crcFinalize 0x01) (State.powerOn rohc))).map (fun t => t.resp) =
      some (.checksum 0x80) := by decide

/-- V-E1 and V-E9: the value -100 as bytes in the reference VALUE_ORDER (R10, K14). -/
theorem test_value_order : messageOfValue .reference 0x05 0xFFFFFF9C = m1 := by decide

/-! ### Witnesses: states that meet a statement's hypotheses together

A witness bears its statement's name; a number after it counts the clauses. -/

theorem test_witness_DecodeOfEncodeIsTheInstruction :
    (Instr.feedFrameEscdata 0xF2).hasEncoding = true ∧
      (Instr.feedFrameEscdata 0xF2).wellFormed .reference = true ∧
      (Instr.feedFrameEscdata 0xF2).appliesIn ⟨.inFrame, true, false⟩ = true := by decide

theorem test_witness_DecodedRequestsAreWellFormed :
    decode .reference ⟨.inFrame, false, true⟩ (.byte 0xFF) = .ok (.feedFrameOverrun 0xFF) := rfl

theorem test_witness_EveryByteHasOneClass :
    Dec.powerOn.state = .awaitingStart ∧ (0x0A : Byte) ≠ Config.reference.startByte := by decide

theorem test_witness_ReservedCommandCodeIsRefused :
    (State.reset.withInput [.command 0b11 []]).input = .command 0b11 [] :: [] := rfl

theorem test_witness_IllFormedReservedValuesAreRefused :
    (∃ p : Params, p.startByte = p.endByte) ∧ (∃ p : Params, p.startByte = p.escapeByte) ∧
      (∃ p : Params, p.endByte = p.escapeByte) ∧
      ∃ p : Params, p.reserved.Nodup ∧ ∃ r ∈ p.reserved, complement r ∈ p.reserved :=
  ⟨⟨{ Params.reference with endByte := 0x0D }, by decide⟩,
    ⟨{ Params.reference with escapeByte := 0x0D }, by decide⟩,
    ⟨{ Params.reference with escapeByte := 0x0A }, by decide⟩,
    ⟨{ Params.reference with endByte := 0xF2 }, by decide⟩⟩

theorem test_witness_StepRunsTheDecodedInstruction_1 :
    let s := overfull.withInput [.byte 0x11]
    s.input = .byte 0x11 :: [] ∧
      decode s.cfg ⟨s.dec.state, s.dec.esc, decide (s.cfg.decCap ≤ s.dec.len)⟩ (.byte 0x11) =
        .ok (.feedFrameOverrun 0x11) := ⟨rfl, rfl⟩

theorem test_witness_StepRunsTheDecodedInstruction_2 :
    let s := opened.withInput [.command 0b01 []]
    s.input = .command 0b01 [] :: [] ∧
      decode s.cfg ⟨s.dec.state, s.dec.esc, decide (s.cfg.decCap ≤ s.dec.len)⟩ (.command 0b01 []) =
        .error (.operandLength 0b01 0) := ⟨rfl, rfl⟩

theorem test_witness_StepRunsTheDecodedInstruction_3 : State.reset.input = [] := rfl

/-- The invariants hold of an encoder with a message pending, and a command completes there. -/
theorem test_witness_EncoderInvariantsHoldBetweenOperations :
    full.enc.Inv full.cfg ∧ (∃ t, exec (.addMessage m1) full = .next t) ∧
      (full.withInput [.command 0b10 []]).enc.Inv full.cfg ∧
      ∃ t, step (full.withInput [.command 0b10 []]) = .next t :=
  ⟨⟨by decide, by decide, by decide, by decide, .inl rfl⟩, ⟨_, rfl⟩,
    ⟨by decide, by decide, by decide, by decide, .inl rfl⟩, ⟨_, rfl⟩⟩

theorem test_witness_DecoderInvariantsHoldBetweenOperations :
    overfull.dec.Inv overfull.cfg ∧ (∃ t, exec (.feedFrameOverrun 0x11) overfull = .next t) ∧
      (overfull.withInput [.byte 0x11]).dec.Inv overfull.cfg ∧
      ∃ t, step (overfull.withInput [.byte 0x11]) = .next t :=
  ⟨⟨by decide, by decide, by decide⟩, ⟨_, rfl⟩, ⟨by decide, by decide, by decide⟩, ⟨_, rfl⟩⟩

theorem test_witness_ReachableStatesMeetTheInvariants : ∃ s, Reachable s ∧ s.dec.state = .inFrame :=
  ⟨_, .step (.powerOn .reference [.byte 0x0D]) rfl, rfl⟩

theorem test_witness_FeedAwaitStartOpensAFrame : State.reset.dec.state = .awaitingStart := rfl

theorem test_witness_FeedAwaitOtherIsIgnored :
    State.reset.dec.state = .awaitingStart ∧ (0x1B : Byte) ≠ State.reset.cfg.startByte := by decide

theorem test_witness_FeedFrameStartRestartsTheFrame : overfull.dec.state = .inFrame := rfl

theorem test_witness_FeedFrameEscapeSetsTheFlag : overfull.dec.state = .inFrame := rfl

theorem test_witness_FeedFrameEndValidatesAndCloses :
    overfull.dec.state = .inFrame ∧ overfull.dec.buf.length = overfull.dec.len := by decide

/-- One free byte is left. -/
theorem test_witness_FeedFrameDataAppendsTheByte :
    let s := withDec cap8 (inFrame (List.replicate 7 0x11) false)
    s.dec.state = .inFrame ∧ (0x11 : Byte) ∉ s.cfg.reserved ∧ s.dec.esc = false ∧
      s.dec.len < s.cfg.decCap ∧ s.dec.buf.length = s.dec.len := by decide

theorem test_witness_FeedFrameEscdataAppendsTheComplement :
    let s := withDec cap8 (inFrame (List.replicate 7 0x11) true)
    s.dec.state = .inFrame ∧ (0xF2 : Byte) ∉ s.cfg.reserved ∧ s.dec.esc = true ∧
      s.dec.len < s.cfg.decCap ∧ s.dec.buf.length = s.dec.len := by decide

theorem test_witness_FeedFrameOverrunDiscardsTheFrame :
    overfull.dec.state = .inFrame ∧ (0x11 : Byte) ∉ overfull.cfg.reserved ∧
      overfull.dec.len = overfull.cfg.decCap := by decide

/-- A FEED row where it applies, and one where it does not. -/
theorem test_witness_FeedRowsRunExactlyInTheirContext :
    ((Instr.feedFrameEnd).inputByte? opened.cfg).isSome = true ∧ (∃ t, exec .feedFrameEnd opened = .next t) ∧
      ∀ t, exec .feedFrameEnd State.reset ≠ .next t :=
  ⟨rfl, ⟨_, rfl⟩, fun _ h => by cases h⟩

theorem test_witness_FeedIsTotalAndLocal :
    let s := opened.withInput [.byte 0x0A]
    s.cfg = .reference ∧ s.dec = inFrame [] false ∧ s.input = .byte 0x0A :: [] := ⟨rfl, rfl, rfl⟩

/-- The frame is left on END, on an overrun and on DEC_RESET, and entered on START. -/
theorem test_witness_FrameIsLeftOnlyOnEndOverrunOrReset :
    (∀ r ∈ [Request.byte 0x0A, .byte 0x11, .decReset],
      (nextOf (step (overfull.withInput [r]))).map (fun t => t.dec.state) = some .awaitingStart) ∧
      overfull.dec.state = .inFrame ∧
      (nextOf (step (State.reset.withInput [.byte 0x0D]))).map (fun t => t.dec.state) = some .inFrame ∧
      State.reset.dec.state = .awaitingStart := by decide

theorem test_witness_StartErasesTheDecodersHistory :
    Dec.powerOn.last = (inFrame [0x05] true).last ∧ Dec.powerOn ≠ inFrame [0x05] true := by decide

/-- The clauses in order, the first at its boundary of one byte; V-D24, V-D14, V-D1 and V-D3 for the others. -/
theorem test_witness_ValidateGivesTheFirstVerdict :
    ([0x00] : List Byte).length < 2 ∧
    (0x02#8).toNat * 5 + 2 ≠ (([0x01, 0x02, 0x03, 0x04, 0x05] : List Byte) ++ [0x02, 0x33]).length ∧
    ((0x01#8).toNat * 5 + 2 = (([0x05, 0x9D, 0xFF, 0xFF, 0xFF] : List Byte) ++ [0x01, 0x94]).length ∧
      crc8 .reference ([0x05, 0x9D, 0xFF, 0xFF, 0xFF] ++ [0x01]) ≠ 0x94) ∧
    ((0x01#8).toNat * 5 + 2 = (([0x05, 0x9C, 0xFF, 0xFF, 0xFF] : List Byte) ++ [0x01, 0x94]).length ∧
      crc8 .reference ([0x05, 0x9C, 0xFF, 0xFF, 0xFF] ++ [0x01]) = 0x94 ∧ 1 ≤ (0x01#8).toNat) ∧
    ((0x00#8).toNat * 5 + 2 = (([] : List Byte) ++ [0x00, 0x00]).length ∧
      crc8 .reference ([] ++ [0x00]) = 0x00 ∧ (0x00#8).toNat = 0) := by decide

/-- V-D7, the frame of V-D1 with its fifth byte taken out; and the zero-message frame of V-D3, padded. -/
theorem test_witness_TruncatedOrPaddedFramesAreLengthErrors :
    (0x01#8).toNat * 5 + 2 =
      (([0x05, 0x9C, 0xFF, 0xFF] : List Byte) ++ [0xFF] ++ [] ++ [0x01, 0x94]).length ∧
    (0x00#8).toNat * 5 + 2 = (([] : List Byte) ++ [] ++ [0x00, 0x00]).length := by decide

/-- A step that latches, and one that does not. -/
theorem test_witness_LastMessageFollowsValidEvents :
    (nextOf (step ((withDec .reference (inFrame f1 false)).withInput [.byte 0x0A]))).map (fun t => t.resp) =
      some (.event (.validMessage (some m1))) ∧
    (nextOf (step ((withDec .reference (inFrame [0x00, 0x00] false)).withInput [.byte 0x0A]))).map
      (fun t => t.resp) = some (.event (.validMessage none)) := by decide

/-- Each of the three reasons. -/
theorem test_witness_EveryDecoderErrorDiscardsAndResets :
    (nextOf (step (opened.withInput [.byte 0x0A]))).map (fun t => t.resp) =
      some (.event (.invalidMessage .lengthError)) ∧
    (nextOf (step ((withDec .reference (inFrame [0x00, 0x01] false)).withInput [.byte 0x0A]))).map
      (fun t => t.resp) = some (.event (.invalidMessage .checksumError)) ∧
    (nextOf (step (overfull.withInput [.byte 0x11]))).map (fun t => t.resp) =
      some (.event (.invalidMessage .capacityOverrun)) := by decide

/-- The last message that fits. -/
theorem test_witness_AddMessageAppendsFoldsAndCounts :
    (State.powerOn oneMessage).enc.count < oneMessage.encMaxMsgs ∧
      (State.powerOn oneMessage).enc.pend.length = 5 * (State.powerOn oneMessage).enc.count := by decide

theorem test_witness_AddMessageAtCapacityIsRejected :
    full.enc.count = full.cfg.encMaxMsgs ∧ full.enc.Inv full.cfg ∧ 0 < full.cfg.encMaxMsgs ∧
      (∃ t, exec .finalize { full with resp := .status .capacityOverrun } = .next t) ∧
      ∃ t, exec .encReset { full with resp := .status .capacityOverrun } = .next t :=
  ⟨by decide, ⟨by decide, by decide, by decide, by decide, .inl rfl⟩, by decide, ⟨_, rfl⟩, ⟨_, rfl⟩⟩

theorem test_witness_FinalizeEmitsTheEscapedFrame :
    full.enc.pend.length = 5 * full.enc.count ∧ full.enc.Inv full.cfg :=
  ⟨by decide, by decide, by decide, by decide, by decide, .inl rfl⟩

/-- The reference configuration, whose frame the last clause spells out. -/
theorem test_witness_FinalizeWithNothingPending :
    State.reset.enc.Inv State.reset.cfg ∧ State.reset.enc.count = 0 ∧ State.reset.cfg = .reference :=
  ⟨⟨by decide, by decide, by decide, by decide, .inl rfl⟩, rfl, rfl⟩

theorem test_witness_FinalizedFrameLength : full.enc.Inv full.cfg :=
  ⟨by decide, by decide, by decide, by decide, .inl rfl⟩

theorem test_witness_AddBatchAcceptsWhatFits :
    full.enc.count ≤ full.cfg.encMaxMsgs ∧ full.enc.pend.length = 5 * full.enc.count := by decide

theorem test_witness_EncodeClosedForm : [m1].length ≤ full.cfg.encMaxMsgs := by decide

theorem test_witness_EncodeBeyondCapacityDenotesNothing : full.cfg.encMaxMsgs < [m1, m1].length := by decide

theorem test_witness_OutputChangesOnlyAtFinalize :
    (∃ t, exec .encReset loaded = .next t) ∧ Instr.encReset ≠ .finalize ∧
      ∀ ms, Instr.encReset ≠ .encodeMessages ms :=
  ⟨⟨_, rfl⟩, by decide, fun _ h => by cases h⟩

/-- The event lists of V-D31 (no event) and V-D1 (the eighth event is the first valid one). -/
theorem test_witness_DecodeFirstMessageFeedsAFreshDecoder :
    (∀ m, DecodeEvent.validMessage m ∉ (Dec.feedAll .reference Dec.powerOn []).2) ∧
      ∃ before after, (Dec.feedAll .reference Dec.powerOn w1).2 = before ++ .validMessage (some m1) :: after ∧
        ∀ m', DecodeEvent.validMessage m' ∉ before :=
  ⟨by simp [Dec.feedAll], .frameStarted :: List.replicate 7 .byteAppended, [], by decide, by simp⟩

theorem test_witness_PseudoOperationsAreTheirExpansions :
    (∃ ms, Instr.addBatch [m1] = .addBatch ms) ∧ (∃ ms, Instr.encodeMessages [m1] = .encodeMessages ms) ∧
      (∃ bytes, Instr.feedAll w1 = .feedAll bytes) ∧
      (∃ bytes, Instr.decodeFirstMessage w1 = .decodeFirstMessage bytes) ∧ State.reset.dec = Dec.powerOn :=
  ⟨⟨_, rfl⟩, ⟨_, rfl⟩, ⟨_, rfl⟩, ⟨_, rfl⟩, rfl⟩

/-- The highest bit. -/
theorem test_witness_CrcDetectsEverySingleBitError : (7 : Nat) < 8 := by decide

/-- The frame of V-D1, split at its second byte. -/
theorem test_witness_SingleBitFlipsAreNeverValid :
    (7 : Nat) < 8 ∧
      (0x01#8).toNat * 5 + 2 =
        (([0x05] : List Byte) ++ [0x9C] ++ [0xFF, 0xFF, 0xFF] ++ [0x01, 0x94]).length ∧
      crc8 .reference ([0x05] ++ [0x9C] ++ [0xFF, 0xFF, 0xFF] ++ [0x01]) = 0x94 := by decide

theorem test_witness_CrcResidueIsZero :
    Config.reference.crcXorout = 0 ∧ Config.reference.crcRefin = false ∧
      Config.reference.crcRefout = false := by decide

theorem test_witness_StuffingReplacesReservedBytes :
    isReserved .reference 0x1B = true ∧ isReserved .reference 0xE4 = false := by decide

/-- V-E5c: an ESCAPE stands at place 7 of the frame. -/
theorem test_witness_EscapedFrameIsDelimited :
    (escapedFrame .reference [0x3E, 0x00, 0x00, 0x00, 0x00, 0x01, 0x1B])[7]? =
      some Config.reference.escapeByte := by decide

/-- The raw bytes fill the buffer exactly. -/
theorem test_witness_UnstuffingInvertsStuffing :
    let d := inFrame [0x05] false
    d.state = .inFrame ∧ d.esc = false ∧ d.buf.length = d.len ∧
      d.len + (List.replicate 7 (0x0D : Byte)).length ≤ cap8.decCap := by decide

/-- One message, the most that this configuration's encoder holds and one decoder of 8 bytes takes. -/
theorem test_witness_DecodeOfEncodedFrameIsTheFirstMessage :
    [m1].length ≤ min full.cfg.encMaxMsgs ((full.cfg.decCap - 2) / 5) ∧
      [m1].length ≤ min (State.powerOn cap8).cfg.encMaxMsgs ((cap8.decCap - 2) / 5) := by decide

/-- V-D40. -/
theorem test_witness_UnstuffedChecksumIsRejected :
    ([0x43, 0x00, 0x00, 0x00, 0x00] : List Byte).length = 5 * (0x01#8).toNat ∧
      ([0x43, 0x00, 0x00, 0x00, 0x00] : List Byte).length + 1 ≤ cap8.decCap := by decide

theorem test_witness_ConfigurationIsNeverWritten :
    (∃ t, exec .finalize loaded = .next t) ∧ ∃ t, step (loaded.withInput [.command 0b10 []]) = .next t :=
  ⟨⟨_, rfl⟩, ⟨_, rfl⟩⟩

theorem test_witness_InstancesShareNothing :
    ((Instr.feedFrameEnd).inputByte? opened.cfg).isSome = true ∧ (∃ t, exec .feedFrameEnd opened = .next t) ∧
      ∃ t, exec .finalize loaded = .next t := ⟨rfl, ⟨_, rfl⟩, ⟨_, rfl⟩⟩

theorem test_witness_NoStateIsStuck_1 :
    (overfull.withInput [.byte 0x0D]).input = .byte overfull.cfg.startByte :: [] := rfl

theorem test_witness_NoStateIsStuck_2 :
    (overfull.withInput [.byte 0x0A]).dec.Inv overfull.cfg ∧
      (overfull.withInput [.byte 0x0A]).input = .byte overfull.cfg.endByte :: [] :=
  ⟨⟨by decide, by decide, by decide⟩, rfl⟩

theorem test_witness_NoStateIsStuck_3 :
    let s := overfull.withInput [.byte 0x11]
    s.dec.state = .inFrame ∧ (0x11 : Byte) ∉ s.cfg.reserved ∧ s.dec.len = s.cfg.decCap ∧
      s.input = .byte 0x11 :: [] := by decide

theorem test_witness_NoStateIsStuck_4 :
    (full.withInput [.command 0b00 []]).input = .command 0b00#2 [] :: [] ∧
      (full.withInput [.command 0b10 []]).input = .command 0b10#2 [] :: [] := ⟨rfl, rfl⟩

end Sys2Proof.Tests
end

section
/-! The scope of the block (spec/00_scope.md): which parameters make a configuration (R6), and what a step does with the oldest
pending request (R12, R73). -/

namespace Sys2Proof

/-- A configuration is exactly what its own parameters make: those that make none are no configuration's (R6). -/
theorem Config.ofParams?_eq_some_iff {p : Params} {cfg : Config} :
    Config.ofParams? p = some cfg ↔ cfg.toParams = p := by
  constructor
  · intro h
    unfold Config.ofParams? at h
    split at h
    · cases h; rfl
    · cases h
  · rintro rfl
    exact dif_pos cfg.ok

/-- Settles O7: a configuration made from such parameters would break one of the facts every configuration satisfies. -/
theorem illFormedReservedValuesAreRefused : Obligations.IllFormedReservedValuesAreRefused := by
  refine ⟨fun p hbad => Option.eq_none_iff_forall_ne_some.2 fun cfg hcfg => ?_,
    Config.ofParams?_eq_some_iff.2 rfl⟩
  obtain rfl := Config.ofParams?_eq_some_iff.1 hcfg
  rcases hbad with hse | hsx | hex | ⟨r, hr, hcomp⟩
  · exact cfg.start_ne_end hse
  · exact cfg.start_ne_escape hsx
  · exact cfg.end_ne_escape hex
  · exact cfg.complement_not_reserved hr hcomp

namespace Machine

/-- A request that is an instruction is taken from the list and executed (R73, R181). -/
theorem step_decoded {s : State} {r : Request} {rest : List Request} {i : Instr}
    (h : s.input = r :: rest) (hd : decode s.cfg (s.dec.context s.cfg) r = .ok i) :
    step s = exec i { s with input := rest } := by
  simp [step, fetch, h, hd]

/-- Settles O9, one lemma about `step` for each answer of `fetch`; the context the statement writes out is `Dec.context`. -/
theorem stepRunsTheDecodedInstruction : Obligations.StepRunsTheDecodedInstruction :=
  ⟨fun _ _ _ _ h hd => step_decoded h hd, fun _ _ _ _ h hd => step_malformed h hd,
    fun _ h => step_idle h⟩

end Machine

end Sys2Proof
end

section
/-! What a step and an instruction do to each register of the state (R20, R34, R73, R181): the cases that the statements about
the state of spec/10_state.md share. -/

namespace Sys2Proof.Machine

/-! ### A step is an instruction -/

/-- Everything a step can do: wait, or execute an instruction once its request is taken from the list (R73). -/
theorem step_idle_or_exec {s t : State} (h : step s = .next t) :
    t = s.idle ∨ ∃ i rest, exec i (s.withInput rest) = .next t := by
  rcases hi : s.input with _ | ⟨r, rest⟩
  · rw [step_idle hi] at h
    cases h
    exact .inl rfl
  · rcases hd : decode s.cfg (s.dec.context s.cfg) r with e | i
    · rw [step_malformed hi hd] at h
      cases h
    · rw [step_decoded hi hd] at h
      exact .inr ⟨i, rest, h⟩

/-! ### The FEED rows -/

/-- A FEED row is FEED of its byte where R181 selects it, and is refused elsewhere. -/
theorem exec_feedRow {i : Instr} {s : State} {b : Byte} (hb : i.inputByte? s.cfg = some b) :
    exec i s =
      if (selectRow s.cfg (s.dec.context s.cfg) b).instr b = i then
        .next (s.completeDec (s.dec.feed s.cfg b).1 (.event (s.dec.feed s.cfg b).2))
      else .refused .rowNotSelected := by
  split
  case isTrue hsel => exact hsel ▸ exec_instr_of_select s
  case isFalse hsel =>
    cases i <;> cases hb
    all_goals exact if_neg fun hrow => hsel (by rw [hrow]; rfl)

theorem exec_feedRow_next {i : Instr} {s t : State} {b : Byte} (hb : i.inputByte? s.cfg = some b)
    (h : exec i s = .next t) :
    t = s.completeDec (s.dec.feed s.cfg b).1 (.event (s.dec.feed s.cfg b).2) := by
  rw [exec_feedRow hb] at h
  split at h <;> cases h
  rfl

/-! ### What an instruction leaves in the encoder and in the decoder -/

/-- Every instruction leaves the encoder alone, or does to it what its command or expansion says. -/
theorem exec_enc_cases {i : Instr} {s t : State} (h : exec i s = .next t) :
    t.enc = s.enc ∨
    (i = .encReset ∧ t.enc = s.enc.workReset s.cfg) ∨
    (∃ m, i = .addMessage m ∧ t.enc = (s.enc.addMessage s.cfg m).1) ∨
    (i = .finalize ∧ t.enc = s.enc.finalize s.cfg) ∨
    (∃ ms, i = .addBatch ms ∧ t.enc = (Enc.addBatch s.cfg s.enc ms).1) ∨
    (∃ ms, i = .encodeMessages ms ∧ t.enc = s.enc.encode s.cfg ms) := by
  cases i
  case encReset => cases h; exact .inr (.inl ⟨rfl, rfl⟩)
  case addMessage m => cases h; exact .inr (.inr (.inl ⟨m, rfl, rfl⟩))
  case finalize => cases h; exact .inr (.inr (.inr (.inl ⟨rfl, rfl⟩)))
  case addBatch ms => cases h; exact .inr (.inr (.inr (.inr (.inl ⟨ms, rfl, rfl⟩))))
  case encodeMessages ms => cases h; exact .inr (.inr (.inr (.inr (.inr ⟨ms, rfl, rfl⟩))))
  case encCmdReserved => cases h
  case decReset | decodeFirstMessage | feedAll | crcInit | crcUpdate | crcFinalize =>
    cases h; exact .inl rfl
  all_goals
    rw [exec_feedRow_next rfl h]
    exact .inl rfl

/-- Every instruction leaves the decoder alone, resets its working state, or feeds it bytes, from where it is or from its power-on
state. -/
theorem exec_dec_cases {i : Instr} {s t : State} (h : exec i s = .next t) :
    t.dec = s.dec ∨ t.dec = s.dec.workReset ∨
    (∃ bytes, t.dec = (Dec.feedAll s.cfg s.dec bytes).1) ∨
    (∃ bytes, t.dec = (Dec.feedAll s.cfg Dec.powerOn bytes).1) := by
  cases i
  case decReset => cases h; exact .inr (.inl rfl)
  case feedAll bytes => cases h; exact .inr (.inr (.inl ⟨bytes, rfl⟩))
  case decodeFirstMessage bytes => cases h; exact .inr (.inr (.inr ⟨bytes, rfl⟩))
  case encCmdReserved => cases h
  case encReset | addMessage | finalize | addBatch | encodeMessages | crcInit | crcUpdate
    | crcFinalize =>
    cases h; exact .inl rfl
  all_goals
    rw [exec_feedRow_next rfl h]
    exact .inr (.inr (.inl ⟨[_], rfl⟩))

/-! ### The configuration -/

theorem exec_cfg_input {i : Instr} {s t : State} (h : exec i s = .next t) :
    t.cfg = s.cfg ∧ t.input = s.input := by
  rcases exec_cases h with ⟨d, r, rfl⟩ | ⟨e, r, rfl⟩ | ⟨r, rfl⟩ <;> exact ⟨rfl, rfl⟩

theorem step_cfg {s t : State} (h : step s = .next t) : t.cfg = s.cfg := by
  rcases step_idle_or_exec h with rfl | ⟨i, rest, hx⟩
  · rfl
  · exact (exec_cfg_input hx).1

/-- Settles O58: an instruction completes by one of three updates, and none of them writes the configuration. -/
theorem configurationIsNeverWritten : Obligations.ConfigurationIsNeverWritten :=
  ⟨fun _ _ _ h => exec_cfg_input h, fun _ _ h => step_cfg h⟩

end Sys2Proof.Machine
end

section
/-! The encoder's invariants (R25): every encoder operation keeps them, and so does every instruction and every step. -/

namespace Sys2Proof.Machine

variable {cfg : Config} {e : Enc}

/-! ### No delimiter inside an escaped frame -/

/-- A stuffed byte that is reserved can only be ESCAPE: the complement of a reserved byte is not reserved (R6, R95). -/
theorem eq_escape_of_mem_stuff {x y : Byte} (hy : y ∈ stuff cfg x) (hr : y ∈ cfg.reserved) :
    y = cfg.escapeByte := by
  by_cases hx : x ∈ cfg.reserved
  · rw [stuff_of_reserved cfg hx, List.mem_pair] at hy
    rcases hy with rfl | rfl
    · rfl
    · exact absurd hr (cfg.complement_not_reserved hx)
  · rw [stuff_of_not_reserved cfg hx, List.mem_singleton] at hy
    exact absurd (hy ▸ hr) hx

theorem eq_escape_of_mem_stuffAll {y : Byte} {l : List Byte} (hy : y ∈ stuffAll cfg l)
    (hr : y ∈ cfg.reserved) : y = cfg.escapeByte := by
  induction l with
  | nil => cases hy
  | cons x l ih =>
    rw [stuffAll_cons, List.mem_append] at hy
    rcases hy with hx | hl
    · exact eq_escape_of_mem_stuff hx hr
    · exact ih hl

theorem start_not_mem_stuffAll (l : List Byte) : cfg.startByte ∉ stuffAll cfg l := fun h =>
  cfg.start_ne_escape (eq_escape_of_mem_stuffAll h (mem_reserved.2 (.inl rfl)))

theorem end_not_mem_stuffAll (l : List Byte) : cfg.endByte ∉ stuffAll cfg l := fun h =>
  cfg.end_ne_escape (eq_escape_of_mem_stuffAll h (mem_reserved.2 (.inr (.inl rfl))))

/-- A finalised frame has at least its two delimiters, COUNT and the checksum (R97). -/
theorem Enc.four_le_buildFrame_length (cfg : Config) (e : Enc) : 4 ≤ (e.buildFrame cfg).length := by
  have hraw := length_le_stuffAll cfg (e.pending ++ [countByte e.count] ++ [e.checksum cfg])
  simp only [Enc.buildFrame, escapedFrame, List.length_cons, List.length_append,
    List.length_nil] at hraw ⊢
  omega

/-! ### The accumulator -/

theorem crcUpdate_append (cfg : Config) (acc : Byte) (l m : List Byte) :
    crcUpdate cfg acc (l ++ m) = crcUpdate cfg (crcUpdate cfg acc l) m :=
  List.foldl_append

/-! ### Each operation keeps the invariants -/

theorem Enc.Inv.wf (h : e.Inv cfg) : e.Wf cfg := by
  refine ⟨h.count_le, h.pend_length, h.out_length, ?_⟩
  rcases h.out_shape with h0 | ⟨-, hcap, -⟩
  · exact h0 ▸ Nat.zero_le _
  · exact hcap

theorem Enc.powerOn_inv (cfg : Config) : (Enc.powerOn cfg).Inv cfg :=
  ⟨Nat.zero_le _, rfl, rfl, rfl, .inl rfl⟩

theorem Enc.workReset_inv (h : e.Inv cfg) : (e.workReset cfg).Inv cfg :=
  ⟨Nat.zero_le _, rfl, rfl, h.out_length, h.out_shape⟩

theorem Enc.addMessage_inv (m : Message) (h : e.Inv cfg) : (e.addMessage cfg m).1.Inv cfg := by
  obtain ⟨hcount, hpend, -, -⟩ := Enc.addMessage_wf m h.wf
  rcases Nat.lt_or_ge e.count cfg.encMaxMsgs with hc | hc
  · rw [Enc.addMessage_accepted m h.pend_length hc] at hcount hpend ⊢
    refine ⟨hcount, hpend, ?_, h.out_length, h.out_shape⟩
    simp only [crcUpdate_append, h.acc_eq]
  · rw [Enc.addMessage_rejected m hc]
    exact h

theorem Enc.addBatch_inv (ms : List Message) :
    ∀ {e : Enc}, e.Inv cfg → (Enc.addBatch cfg e ms).1.Inv cfg := by
  induction ms with
  | nil => exact fun h => h
  | cons m ms ih => exact fun h => ih (Enc.addMessage_inv m h)

theorem Enc.finalize_inv (h : e.Inv cfg) : (e.finalize cfg).Inv cfg :=
  ⟨Nat.zero_le _, rfl, rfl, rfl, .inr ⟨Enc.four_le_buildFrame_length cfg e,
    Enc.buildFrame_length_le h.wf, _, rfl, start_not_mem_stuffAll _, end_not_mem_stuffAll _⟩⟩

theorem Enc.encode_inv (ms : List Message) (h : e.Inv cfg) : (e.encode cfg ms).Inv cfg :=
  Enc.finalize_inv (Enc.addBatch_inv ms (Enc.workReset_inv h))

/-! ### Instructions and steps -/

theorem exec_keeps_enc_inv {i : Instr} {s t : State} (hs : s.enc.Inv s.cfg)
    (h : exec i s = .next t) : t.enc.Inv t.cfg := by
  rw [(exec_cfg_input h).1]
  rcases exec_enc_cases h with he | ⟨-, he⟩ | ⟨m, -, he⟩ | ⟨-, he⟩ | ⟨ms, -, he⟩ | ⟨ms, -, he⟩ <;>
    rw [he]
  · exact hs
  · exact Enc.workReset_inv hs
  · exact Enc.addMessage_inv m hs
  · exact Enc.finalize_inv hs
  · exact Enc.addBatch_inv ms hs
  · exact Enc.encode_inv ms hs

theorem step_keeps_enc_inv {s t : State} (hs : s.enc.Inv s.cfg) (h : step s = .next t) :
    t.enc.Inv t.cfg := by
  rcases step_idle_or_exec h with rfl | ⟨i, rest, hx⟩
  · exact hs
  · exact exec_keeps_enc_inv (s := s.withInput rest) hs hx

/-- Settles O10: an instruction does one of six things to the encoder, and a step is an instruction or a wait. -/
theorem encoderInvariantsHoldBetweenOperations :
    Obligations.EncoderInvariantsHoldBetweenOperations :=
  ⟨Enc.powerOn_inv, fun _ _ _ hs h => exec_keeps_enc_inv hs h, fun _ _ hs h =>
    step_keeps_enc_inv hs h⟩

end Sys2Proof.Machine
end

section
/-! The decoder's invariants (R30): FEED keeps them row by row, and so does every instruction and every step. -/

namespace Sys2Proof.Machine

variable {cfg : Config} {d : Dec}

/-! ### Each operation keeps the invariants -/

theorem Dec.Inv.wf (h : d.Inv cfg) : d.Wf cfg := ⟨h.buf_length, h.len_le⟩

theorem Dec.powerOn_inv (cfg : Config) : Dec.powerOn.Inv cfg :=
  ⟨rfl, Nat.zero_le _, fun _ => ⟨rfl, rfl⟩⟩

theorem Dec.workReset_inv (cfg : Config) (d : Dec) : d.workReset.Inv cfg :=
  ⟨rfl, Nat.zero_le _, fun _ => ⟨rfl, rfl⟩⟩

/-- Inside a frame only the buffer's part of the invariants says anything. -/
theorem Dec.inv_of_inFrame (hw : d.Wf cfg) (hs : d.state = .inFrame) : d.Inv cfg :=
  ⟨hw.1, hw.2, fun ha => by rw [hs] at ha; cases ha⟩

/-- Appending a byte stays in the frame; where it overruns, the working state is reset. -/
theorem Dec.append_inv (x : Byte) (hw : d.Wf cfg) (hs : d.state = .inFrame) :
    (d.append cfg x).1.Inv cfg := by
  rcases Nat.lt_or_ge d.len cfg.decCap with hl | hl
  · refine Dec.inv_of_inFrame (Dec.append_wf x hw) ?_
    rw [Dec.append_fits x hw.1 hl]
    exact hs
  · rw [Dec.append_overruns x hl]
    exact Dec.workReset_inv cfg d

theorem Dec.feed_inv (b : Byte) (h : d.Inv cfg) : (d.feed cfg b).1.Inv cfg := by
  rcases feed_cases cfg d b with ⟨-, -, hf⟩ | ⟨-, -, hf⟩ | ⟨-, -, hf⟩ | ⟨hs, -, hf⟩ |
    ⟨-, -, hf⟩ | ⟨hs, -, -, -, hf⟩ | ⟨hs, -, -, -, hf⟩ | ⟨-, -, -, hf⟩ <;> rw [hf]
  · exact Dec.inv_of_inFrame ⟨rfl, Nat.zero_le _⟩ rfl
  · exact h
  · exact Dec.inv_of_inFrame ⟨rfl, Nat.zero_le _⟩ rfl
  · exact Dec.inv_of_inFrame h.wf hs
  · rw [frameEnd_eq]
    exact ⟨rfl, Nat.zero_le _, fun _ => ⟨rfl, rfl⟩⟩
  · exact Dec.append_inv b h.wf hs
  · exact Dec.append_inv (d := { d with esc := false }) _ h.wf hs
  · exact Dec.workReset_inv cfg d

theorem Dec.feedAll_inv (bytes : List Byte) :
    ∀ {d : Dec}, d.Inv cfg → (Dec.feedAll cfg d bytes).1.Inv cfg := by
  induction bytes with
  | nil => exact fun h => h
  | cons b bytes ih => exact fun h => ih (Dec.feed_inv b h)

/-! ### Instructions and steps -/

theorem exec_keeps_dec_inv {i : Instr} {s t : State} (hs : s.dec.Inv s.cfg)
    (h : exec i s = .next t) : t.dec.Inv t.cfg := by
  rw [(exec_cfg_input h).1]
  rcases exec_dec_cases h with hd | hd | ⟨bytes, hd⟩ | ⟨bytes, hd⟩ <;> rw [hd]
  · exact hs
  · exact Dec.workReset_inv s.cfg s.dec
  · exact Dec.feedAll_inv bytes hs
  · exact Dec.feedAll_inv bytes (Dec.powerOn_inv s.cfg)

theorem step_keeps_dec_inv {s t : State} (hs : s.dec.Inv s.cfg) (h : step s = .next t) :
    t.dec.Inv t.cfg := by
  rcases step_idle_or_exec h with rfl | ⟨i, rest, hx⟩
  · exact hs
  · exact exec_keeps_dec_inv (s := s.withInput rest) hs hx

/-- Settles O11: an instruction resets the decoder, feeds it bytes or leaves it alone, and FEED keeps R30 in each row. -/
theorem decoderInvariantsHoldBetweenOperations :
    Obligations.DecoderInvariantsHoldBetweenOperations :=
  ⟨Dec.powerOn_inv, fun _ _ _ hs h => exec_keeps_dec_inv hs h, fun _ _ hs h =>
    step_keeps_dec_inv hs h⟩

/-! ### Both instances, along every run -/

theorem State.powerOn_inv (cfg : Config) : (State.powerOn cfg).Inv :=
  ⟨Enc.powerOn_inv cfg, Dec.powerOn_inv cfg⟩

theorem step_keeps_inv {s t : State} (hs : s.Inv) (h : step s = .next t) : t.Inv :=
  ⟨step_keeps_enc_inv hs.enc h, step_keeps_dec_inv hs.dec h⟩

/-- The invariants say more than that the buffers are canonical (R21, R24, R28). -/
theorem State.Inv.memory_wf {s : State} (h : s.Inv) : Memory.wf s :=
  Memory.wf_iff.2 ⟨h.enc.wf, h.dec.wf⟩

theorem Reachable.inv {s : State} (h : Reachable s) : s.Inv := by
  induction h with
  | powerOn cfg input =>
    obtain ⟨henc, hdec⟩ := State.powerOn_inv cfg
    exact ⟨henc, hdec⟩
  | step _ hstep ih => exact step_keeps_inv ih hstep

/-- Settles O12: the reset state is a power-on state. -/
theorem resetMeetsTheInvariants : Obligations.ResetMeetsTheInvariants :=
  State.powerOn_inv Config.reference

/-- Settles O13, by induction on how the state is reached. -/
theorem reachableStatesMeetTheInvariants : Obligations.ReachableStatesMeetTheInvariants :=
  fun _ h => ⟨h.inv, h.inv.memory_wf⟩

end Sys2Proof.Machine
end

section
/-! OUT and OUT_LEN change only at FINALIZE (R24, R160), and what that makes of an encoder's run (R274). -/

namespace Sys2Proof.Machine

variable {cfg : Config} {e : Enc}

/-! ### The operations that keep the output -/

theorem Enc.addMessage_keeps_output (cfg : Config) (e : Enc) (m : Message) :
    (e.addMessage cfg m).1.out = e.out ∧ (e.addMessage cfg m).1.outLen = e.outLen := by
  unfold Enc.addMessage
  split <;> exact ⟨rfl, rfl⟩

theorem Enc.addBatch_keeps_output (cfg : Config) (ms : List Message) : ∀ e : Enc,
    (Enc.addBatch cfg e ms).1.out = e.out ∧ (Enc.addBatch cfg e ms).1.outLen = e.outLen := by
  induction ms with
  | nil => exact fun e => ⟨rfl, rfl⟩
  | cons m ms ih =>
    intro e
    obtain ⟨hout, hlen⟩ := Enc.addMessage_keeps_output cfg e m
    obtain ⟨ihout, ihlen⟩ := ih (e.addMessage cfg m).1
    exact ⟨ihout.trans hout, ihlen.trans hlen⟩

theorem exec_keeps_output {i : Instr} {s t : State} (h : exec i s = .next t) (hf : i ≠ .finalize)
    (hm : ∀ ms, i ≠ .encodeMessages ms) : t.enc.out = s.enc.out ∧ t.enc.outLen = s.enc.outLen := by
  rcases exec_enc_cases h with he | ⟨-, he⟩ | ⟨m, -, he⟩ | ⟨hi, -⟩ | ⟨ms, -, he⟩ | ⟨ms, hi, -⟩
  · rw [he]; exact ⟨rfl, rfl⟩
  · rw [he]; exact ⟨rfl, rfl⟩
  · rw [he]; exact Enc.addMessage_keeps_output s.cfg s.enc m
  · exact absurd hi hf
  · rw [he]; exact Enc.addBatch_keeps_output s.cfg ms s.enc
  · exact absurd hi (hm ms)

/-! ### The results of a run -/

theorem Enc.run_statuses_length (cs : List EncCommand) : ∀ e : Enc,
    (Enc.run cfg e cs).statuses.length = cs.length := by
  induction cs with
  | nil => exact fun _ => rfl
  | cons c cs ih => intro e; simp [Enc.run_cons, ih]

theorem Enc.run_frames_length (cs : List EncCommand) : ∀ e : Enc,
    (Enc.run cfg e cs).frames.length = cs.count .finalize := by
  induction cs with
  | nil => exact fun _ => rfl
  | cons c cs ih => intro e; cases c <;> simp [Enc.run_cons, ih]

/-- One command's share of the list of outputs: what stood last before it is replaced exactly by a FINALIZE. -/
theorem Enc.getLastD_outputAfter_command (c : EncCommand) (frames : List (List Byte × Nat)) :
    ((e.command cfg c).1.outputAfter c ++ frames).getLastD (e.readOut, e.outLen) =
      frames.getLastD ((e.command cfg c).1.readOut, (e.command cfg c).1.outLen) := by
  cases c with
  | reset => rfl
  | addMessage m =>
    obtain ⟨hout, hlen⟩ := Enc.addMessage_keeps_output cfg e m
    simp [Enc.readOut, hout, hlen]
  | finalize => exact List.getLastD_cons

theorem Enc.run_final_output (cs : List EncCommand) : ∀ e : Enc,
    ((Enc.run cfg e cs).final.readOut, (Enc.run cfg e cs).final.outLen) =
      (Enc.run cfg e cs).frames.getLastD (e.readOut, e.outLen) := by
  induction cs with
  | nil => exact fun _ => rfl
  | cons c cs ih =>
    intro e
    rw [Enc.run_cons, Enc.getLastD_outputAfter_command]
    exact ih _

/-! ### Serving a command trace by steps -/

/-- The machine that steps through the requests of a command trace runs its encoder over the trace, and touches nothing else. -/
theorem traceSteps_commands (cs : List EncCommand) : ∀ s : State,
    s.input = cs.map EncCommand.request →
    ∃ u rs, traceSteps cs.length s = .next (u, rs) ∧ u.enc = (Enc.run s.cfg s.enc cs).final ∧
      rs.map Response.status? = (Enc.run s.cfg s.enc cs).statuses.map some ∧
      rs.filterMap Response.frame? = (Enc.run s.cfg s.enc cs).frames ∧
      u.dec = s.dec ∧ u.cfg = s.cfg ∧ u.input = [] := by
  induction cs with
  | nil => exact fun s hs => ⟨s, [], rfl, rfl, rfl, rfl, rfl, rfl, hs⟩
  | cons c cs ih =>
    intro s hs
    obtain ⟨r, hstep, hstatus, hframe⟩ := step_command hs
    obtain ⟨u, rs, htrace, henc, hstatuses, hframes, hdec, hcfg, hinput⟩ :=
      ih ((s.withInput (cs.map EncCommand.request)).completeEnc (s.enc.command s.cfg c).1 r) rfl
    refine ⟨u, r :: rs, traceSteps_succ hstep htrace, henc, ?_, ?_, hdec, hcfg, hinput⟩
    · rw [List.map_cons, hstatus, hstatuses]
      rfl
    · have hcons : (r :: rs).filterMap Response.frame? =
          r.frame?.toList ++ rs.filterMap Response.frame? := by
        cases hr : r.frame? <;> simp [hr]
      rw [hcons, hframe, hframes]
      rfl

/-- Settles O40: the instructions by their cases, the run and the served trace by induction on the commands. -/
theorem outputChangesOnlyAtFinalize : Obligations.OutputChangesOnlyAtFinalize := by
  refine ⟨fun _ _ _ h => exec_keeps_output h, fun cfg e cs => ⟨Enc.run_statuses_length cs e,
    Enc.run_frames_length cs e, Enc.run_final_output cs e⟩, fun s cs => ?_⟩
  have h := traceSteps_commands cs { s with input := cs.map EncCommand.request } rfl
  rwa [← List.length_map (as := cs) EncCommand.request] at h

end Sys2Proof.Machine
end

section
/-! The two instances share nothing (R20, R74): an operation of one neither writes nor reads the other. -/

namespace Sys2Proof.Machine

/-- A FEED row neither writes the encoder nor looks at it: R181 selects by the decoder alone. -/
theorem exec_feedRow_ignores_enc {i : Instr} {s t : State}
    (hi : (i.inputByte? s.cfg).isSome = true) (h : exec i s = .next t) :
    t.enc = s.enc ∧ ∀ e : Enc, exec i { s with enc := e } = .next { t with enc := e } := by
  obtain ⟨b, hb⟩ := Option.isSome_iff_exists.1 hi
  rw [exec_feedRow hb] at h
  split at h
  case isTrue hsel =>
    cases h
    exact ⟨rfl, fun e => (exec_feedRow (s := { s with enc := e }) hb).trans (if_pos hsel)⟩
  case isFalse => cases h

/-- Settles O59: FEED by the row's equation, every other operation by what its meaning completes with. -/
theorem instancesShareNothing : Obligations.InstancesShareNothing := by
  refine ⟨fun i s t hi h => ?_, fun i s t hi h => ?_⟩
  · rcases hi with hi | rfl | ⟨bytes, rfl⟩ | ⟨bytes, rfl⟩
    · exact exec_feedRow_ignores_enc hi h
    all_goals
      cases h
      exact ⟨rfl, fun _ => rfl⟩
  · rcases hi with rfl | ⟨m, rfl⟩ | rfl | ⟨ms, rfl⟩ | ⟨ms, rfl⟩
    all_goals
      cases h
      exact ⟨rfl, fun _ => rfl⟩

end Sys2Proof.Machine
end

section
/-! Requests and instructions (spec/30_encoding.md R102, R105; spec/42_decoder.md R181): the class of a byte, and that reading a
request and writing an instruction undo each other. -/

namespace Sys2Proof.Machine

variable {cfg : Config} {ctx : DecContext} {b : Byte}

/-! ### The class of a byte -/

/-- The four classes, each with the bytes that belong to it (R102). -/
theorem classify_cases (cfg : Config) (b : Byte) :
    (b = cfg.startByte ∧ classify cfg b = .start) ∨ (b = cfg.escapeByte ∧ classify cfg b = .escape) ∨
      (b = cfg.endByte ∧ classify cfg b = .endFrame) ∨
      (b ∉ cfg.reserved ∧ classify cfg b = .data) := by
  by_cases hr : b ∈ cfg.reserved
  · rcases mem_reserved.1 hr with rfl | rfl | rfl
    · exact .inl ⟨rfl, classify_start cfg⟩
    · exact .inr (.inr (.inl ⟨rfl, classify_end cfg⟩))
    · exact .inr (.inl ⟨rfl, classify_escape cfg⟩)
  · exact .inr (.inr (.inr ⟨hr, classify_data cfg hr⟩))

/-- Settles O4: in each of the four classes the other tests fail, and FEED's row for noise leaves the decoder alone. -/
theorem everyByteHasOneClass : Obligations.EveryByteHasOneClass := by
  intro cfg b
  have hnoise : ∀ d : Dec, d.state = .awaitingStart → b ≠ cfg.startByte → (d.feed cfg b).1 = d :=
    fun d hd hb => by rw [feed_awaitOther hd hb]; rfl
  rcases classify_cases cfg b with ⟨rfl, hc⟩ | ⟨rfl, hc⟩ | ⟨rfl, hc⟩ | ⟨hb, hc⟩
  · simp [cfg.start_ne_escape, cfg.start_ne_end]
  · simpa [cfg.start_ne_escape.symm, cfg.end_ne_escape.symm] using hnoise
  · simpa [cfg.start_ne_end.symm, cfg.end_ne_escape] using hnoise
  · simp only [mem_reserved, not_or] at hb
    simpa [hc, hb] using hnoise

/-! ### Reading a byte -/

/-- What a byte is read as is an instruction of that byte, of its class, in its context (R181). -/
theorem selectRow_instr_wellFormed (cfg : Config) (ctx : DecContext) (b : Byte) :
    ((selectRow cfg ctx b).instr b).inputByte? cfg = some b ∧
      ((selectRow cfg ctx b).instr b).wellFormed cfg = true ∧
      ((selectRow cfg ctx b).instr b).appliesIn ctx = true := by
  rcases hs : ctx.state with _ | _
  · rw [selectRow_awaiting hs]
    split
    case isTrue hb => exact ⟨congrArg some hb.symm, rfl, beq_iff_eq.2 hs⟩
    case isFalse hb => exact ⟨rfl, bne_iff_ne.2 hb, beq_iff_eq.2 hs⟩
  · by_cases hr : b ∈ cfg.reserved
    · rcases mem_reserved.1 hr with rfl | rfl | rfl
      · rw [selectRow_start hs]; exact ⟨rfl, rfl, beq_iff_eq.2 hs⟩
      · rw [selectRow_end hs]; exact ⟨rfl, rfl, beq_iff_eq.2 hs⟩
      · rw [selectRow_escape hs]; exact ⟨rfl, rfl, beq_iff_eq.2 hs⟩
    · rw [selectRow_data hs hr]
      rcases hf : ctx.full with _ | _ <;> rcases he : ctx.esc with _ | _ <;>
        simp [FeedRow.instr, Instr.inputByte?, Instr.wellFormed, Instr.appliesIn, hs, hr, hf, he]

/-- An instruction of a byte, of its class, in its context, is what the byte is read as (R181). -/
theorem selectRow_instr_of_wellFormed {i : Instr} (hb : i.inputByte? cfg = some b)
    (hw : i.wellFormed cfg = true) (ha : i.appliesIn ctx = true) :
    (selectRow cfg ctx b).instr b = i := by
  cases i <;> cases hb
  all_goals
    simp only [Instr.wellFormed, Instr.appliesIn, List.contains_eq_mem, bne_iff_ne, ne_eq, beq_iff_eq,
      Bool.and_eq_true, Bool.not_eq_eq_eq_not, Bool.not_true, decide_eq_false_iff_not] at hw ha
  case feedAwaitStart => simp [selectRow_awaiting ha, FeedRow.instr]
  case feedAwaitOther => simp [selectRow_awaiting ha, hw, FeedRow.instr]
  case feedFrameStart => simp [selectRow_start ha, FeedRow.instr]
  case feedFrameEscape => simp [selectRow_escape ha, FeedRow.instr]
  case feedFrameEnd => simp [selectRow_end ha, FeedRow.instr]
  case feedFrameData => simp [selectRow_data ha.1.1 hw, ha, FeedRow.instr]
  case feedFrameEscdata => simp [selectRow_data ha.1.1 hw, ha, FeedRow.instr]
  case feedFrameOverrun => simp [selectRow_data ha.1 hw, ha, FeedRow.instr]

theorem selectRow_instr_eq_iff {i : Instr} :
    (selectRow cfg ctx b).instr b = i ↔
      i.inputByte? cfg = some b ∧ i.wellFormed cfg = true ∧ i.appliesIn ctx = true :=
  ⟨fun h => h ▸ selectRow_instr_wellFormed cfg ctx b,
    fun ⟨hb, hw, ha⟩ => selectRow_instr_of_wellFormed hb hw ha⟩

/-- A FEED row has an encoding, its byte. -/
theorem encode_of_inputByte {i : Instr} (hb : i.inputByte? cfg = some b) :
    i.hasEncoding = true ∧ encode cfg i = [.byte b] := by
  cases i <;> cases hb <;> exact ⟨rfl, rfl⟩

/-! ### Decode and encode -/

/-- Settles O1: a FEED row by the row R181 selects for its byte, a command by its code. -/
theorem decodeOfEncodeIsTheInstruction : Obligations.DecodeOfEncodeIsTheInstruction := by
  intro cfg ctx i he hw ha
  rcases hb : i.inputByte? cfg with _ | b
  · cases i
    case decReset | encReset | addMessage | finalize | encCmdReserved => rfl
    case addBatch | encodeMessages | decodeFirstMessage | feedAll | crcInit | crcUpdate
      | crcFinalize => cases he
    all_goals cases hb
  · rw [(encode_of_inputByte hb).2]
    simp [decode, selectRow_instr_of_wellFormed hb hw ha]

/-- Settles O2: by what R181 reads a byte as, and what R105 reads a command as. -/
theorem decodedRequestsAreWellFormed : Obligations.DecodedRequestsAreWellFormed := by
  intro cfg ctx r i h
  cases r with
  | byte b =>
    obtain ⟨hb, hw, ha⟩ := selectRow_instr_eq_iff.1 (Except.ok.inj h)
    obtain ⟨he, henc⟩ := encode_of_inputByte hb
    exact ⟨he, hw, ha, .inr henc⟩
  | decReset => cases h; exact ⟨rfl, rfl, rfl, .inr rfl⟩
  | command code operand =>
    rcases decodeCommand_cases h with ⟨rfl, rfl, rfl⟩ | ⟨m, rfl, rfl, rfl⟩ | ⟨rfl, rfl, rfl⟩ |
      ⟨rfl, -⟩
    · exact ⟨rfl, rfl, rfl, .inr rfl⟩
    · exact ⟨rfl, rfl, rfl, .inr rfl⟩
    · exact ⟨rfl, rfl, rfl, .inr rfl⟩
    · exact ⟨rfl, rfl, rfl, .inl rfl⟩

/-- Settles O3: closed requests, read by evaluation. -/
theorem specWordsDecode : Obligations.SpecWordsDecode :=
  ⟨rfl, rfl, rfl, rfl, rfl, rfl, rfl, rfl, rfl, rfl, rfl, rfl, rfl⟩

/-- Settles O5: the code is read as an instruction whatever follows it, and that instruction's meaning is the refusal. -/
theorem reservedCommandCodeIsRefused : Obligations.ReservedCommandCodeIsRefused :=
  fun _ _ _ => ⟨rfl, fun h => step_decoded (i := .encCmdReserved) h rfl⟩

/-! ### The codes of the outputs -/

/-- The reason code tells an error from every other event (R107). -/
theorem reasonCode_eq_zero_iff (e : DecodeEvent) :
    reasonCode e = 0 ↔ ∀ r, e ≠ .invalidMessage r := by
  cases e
  case invalidMessage r => cases r <;> simp [reasonCode]
  all_goals simp [reasonCode]

/-- Settles O6: the codes by evaluation, and the equivalence for the reason code 0. -/
theorem interfaceCodesAsListed : Obligations.InterfaceCodesAsListed :=
  ⟨⟨rfl, rfl, rfl, rfl, rfl, fun _ => rfl, fun _ => rfl⟩, reasonCode_eq_zero_iff, rfl, rfl, rfl, rfl,
    rfl⟩

end Sys2Proof.Machine
end

section
/-! Stuffing (spec/30_encoding.md R95 to R100): the complement, where the reserved values stand in an escaped frame, and that
unstuffing gives the raw bytes back. -/

namespace Sys2Proof

/-! ### The complement (R100) -/

theorem complement_toNat (x : Byte) : (complement x).toNat = 255 - x.toNat := by
  simp only [complement, BitVec.toNat_ofNat]
  omega

theorem complement_eq_not (x : Byte) : complement x = ~~~x := by
  apply BitVec.eq_of_toNat_eq
  rw [complement_toNat, BitVec.toNat_not]

theorem complement_ne (x : Byte) : complement x ≠ x := by
  intro h
  have hval := congrArg BitVec.toNat h
  have hlt := x.isLt
  rw [complement_toNat] at hval
  omega

/-- Settles O53: the complement flips every bit, and 255 is odd. -/
theorem complementIsBitwise : Obligations.ComplementIsBitwise := fun x =>
  ⟨complement_toNat x, complement_eq_not x, (complement_eq_not x).trans BitVec.xor_allOnes.symm,
    complement_ne x⟩

namespace Machine

variable {cfg : Config} {x : Byte}

/-! ### What stuffing is (R95) -/

theorem stuffAll_eq_flatten (cfg : Config) (l : List Byte) :
    stuffAll cfg l = (l.map (stuff cfg)).flatten := by
  induction l with
  | nil => rfl
  | cons x l ih => rw [stuffAll_cons, ih, List.map_cons, List.flatten_cons]

theorem isReserved_eq_false_iff : isReserved cfg x = false ↔ x ∉ cfg.reserved := by
  rw [← isReserved_iff, Bool.not_eq_true]

/-- Settles O52: one lemma for each of the three functions. -/
theorem stuffingReplacesReservedBytes : Obligations.StuffingReplacesReservedBytes := fun cfg =>
  ⟨fun _ => (isReserved_iff cfg).trans mem_reserved,
    fun _ h => stuff_of_reserved cfg ((isReserved_iff cfg).1 h),
    fun _ h => stuff_of_not_reserved cfg (isReserved_eq_false_iff.1 h), stuffAll_eq_flatten cfg⟩

theorem ne_escape_of_not_reserved (h : x ∉ cfg.reserved) : x ≠ cfg.escapeByte := fun he =>
  h (mem_reserved.2 (.inr (.inr he)))

theorem complement_ne_escape (h : x ∈ cfg.reserved) : complement x ≠ cfg.escapeByte :=
  ne_escape_of_not_reserved (cfg.complement_not_reserved h)

/-! ### The reserved values in an escaped frame (R98) -/

/-- Inside stuffed bytes an ESCAPE stands right before the complement of the reserved byte it replaces. -/
theorem escape_in_stuffAll {t : List Byte} (ht : cfg.escapeByte ∉ t) : ∀ (l : List Byte) (k : Nat),
    (stuffAll cfg l ++ t)[k]? = some cfg.escapeByte →
      ∃ r ∈ cfg.reserved, (stuffAll cfg l ++ t)[k + 1]? = some (complement r) := by
  intro l
  induction l with
  | nil => exact fun k hk => absurd (List.mem_of_getElem? hk) ht
  | cons x l ih =>
    intro k hk
    rw [stuffAll_cons, List.append_assoc] at hk ⊢
    by_cases hx : x ∈ cfg.reserved
    · rw [stuff_of_reserved cfg hx] at hk ⊢
      match k, hk with
      | 0, _ => exact ⟨x, hx, rfl⟩
      | 1, hk => exact absurd (Option.some.inj hk) (complement_ne_escape hx)
      | k + 2, hk => exact ih k hk
    · rw [stuff_of_not_reserved cfg hx] at hk ⊢
      match k, hk with
      | 0, hk => exact absurd (Option.some.inj hk) (ne_escape_of_not_reserved hx)
      | k + 1, hk => exact ih k hk

theorem count_start_escapedFrame (cfg : Config) (raw : List Byte) :
    (escapedFrame cfg raw).count cfg.startByte = 1 := by
  simp [escapedFrame, List.count_eq_zero.2 (start_not_mem_stuffAll raw), cfg.start_ne_end.symm]

theorem count_end_escapedFrame (cfg : Config) (raw : List Byte) :
    (escapedFrame cfg raw).count cfg.endByte = 1 := by
  simp [escapedFrame, List.count_eq_zero.2 (end_not_mem_stuffAll raw), cfg.start_ne_end]

/-- Settles O54: no delimiter is left among the stuffed bytes, and an ESCAPE there introduces a complement. -/
theorem escapedFrameIsDelimited : Obligations.EscapedFrameIsDelimited := by
  refine fun cfg raw => ⟨rfl, count_start_escapedFrame cfg raw,
    List.getLast?_concat (l := cfg.startByte :: stuffAll cfg raw), count_end_escapedFrame cfg raw,
    fun k hk => ?_⟩
  match k, hk with
  | 0, hk => exact absurd (Option.some.inj hk) cfg.start_ne_escape
  | k + 1, hk =>
    have ht : cfg.escapeByte ∉ [cfg.endByte] := by simp [cfg.end_ne_escape.symm]
    obtain ⟨r, hr, hnext⟩ := escape_in_stuffAll ht raw k hk
    exact ⟨r, hr, hnext, cfg.complement_not_reserved hr⟩

/-! ### Unstuffing (R99) -/

/-- The stuffed form of one byte unstuffs to that byte, and leaves no escape pending. -/
theorem unstuffFrom_stuff_append (cfg : Config) (x : Byte) (s : List Byte) :
    unstuffFrom cfg false (stuff cfg x ++ s) = x :: unstuffFrom cfg false s := by
  by_cases hx : x ∈ cfg.reserved
  · simp [stuff_of_reserved cfg hx, unstuffFrom, complement_ne_escape hx, complement_complement]
  · simp [stuff_of_not_reserved cfg hx, unstuffFrom, ne_escape_of_not_reserved hx]

theorem unstuff_stuffAll (cfg : Config) (l : List Byte) : unstuff cfg (stuffAll cfg l) = l := by
  unfold unstuff
  induction l with
  | nil => rfl
  | cons x l ih => rw [stuffAll_cons, unstuffFrom_stuff_append, ih]

/-- A decoder inside a frame with room appends the byte whose stuffed form it is fed (R185, R187, R188). -/
theorem feedAll_stuff {d : Dec} (hs : d.state = .inFrame) (he : d.esc = false)
    (hb : d.buf.length = d.len) (hl : d.len < cfg.decCap) :
    (Dec.feedAll cfg d (stuff cfg x)).1 = { d with buf := d.buf ++ [x], len := d.len + 1 } := by
  by_cases hx : x ∈ cfg.reserved
  · have hesc : d.feed cfg cfg.escapeByte = ({ d with esc := true }, .escapePending) :=
      feed_frameEscape hs
    have hdata := feed_frameEscdata (cfg := cfg) (d := { d with esc := true }) hs
      (cfg.complement_not_reserved hx) rfl hl
    have happ := Dec.append_fits (cfg := cfg) (d := { d with esc := false }) x hb hl
    simp [stuff_of_reserved cfg hx, feedAll_cons, hesc, hdata, Dec.frameEscdata,
      complement_complement, happ, he]
  · simp [stuff_of_not_reserved cfg hx, feedAll_cons, feed_frameData hs hx he hl, Dec.frameData,
      Dec.append_fits x hb hl]

theorem feedAll_stuffAll (raw : List Byte) : ∀ d : Dec, d.state = .inFrame → d.esc = false →
    d.buf.length = d.len → d.len + raw.length ≤ cfg.decCap →
    (Dec.feedAll cfg d (stuffAll cfg raw)).1 =
      { d with buf := d.buf ++ raw, len := d.len + raw.length } := by
  induction raw with
  | nil => exact fun d _ _ _ _ => by simp
  | cons x raw ih =>
    intro d hs he hb hl
    rw [List.length_cons] at hl
    have hroom : d.len < cfg.decCap := by omega
    rw [stuffAll_cons, feedAll_append, feedAll_stuff hs he hb hroom]
    rw [ih { d with buf := d.buf ++ [x], len := d.len + 1 } hs he (by simp [hb])
      (by simp only; omega)]
    simp [Nat.add_assoc, Nat.add_comm]

/-- Settles O55: byte by byte, as a function and through FEED. -/
theorem unstuffingInvertsStuffing : Obligations.UnstuffingInvertsStuffing := fun cfg raw =>
  ⟨unstuff_stuffAll cfg raw, feedAll_stuffAll raw⟩

end Machine

end Sys2Proof
end

section
/-! The length of a finalised frame (spec/30_encoding.md R97): one byte more for each reserved byte among the escape-eligible
ones. -/

namespace Sys2Proof.Machine

variable {cfg : Config} {e : Enc}

theorem length_stuffAll (cfg : Config) (l : List Byte) :
    (stuffAll cfg l).length = l.length + l.countP (isReserved cfg) := by
  induction l with
  | nil => rfl
  | cons x l ih =>
    rw [stuffAll_cons, List.length_append, ih, List.length_cons, List.countP_cons]
    rcases hx : isReserved cfg x with _ | _
    · simp [stuff, hx]; omega
    · simp [stuff, hx]; omega

theorem length_escapedFrame (cfg : Config) (raw : List Byte) :
    (escapedFrame cfg raw).length = raw.length + 2 + raw.countP (isReserved cfg) := by
  simp only [escapedFrame, List.length_cons, List.length_append, List.length_nil, length_stuffAll]
  omega

/-- The running accumulator gives the checksum of the Message section and COUNT (R23, R137, R154). -/
theorem Enc.checksum_eq_crc8 (h : e.Inv cfg) :
    e.checksum cfg = crc8 cfg (e.pend ++ [countByte e.count]) := by
  rw [Enc.checksum, h.acc_eq, crc8, crcUpdate_append]

theorem Enc.buildFrame_eq (h : e.Inv cfg) :
    e.buildFrame cfg = escapedFrame cfg
      (e.pend ++ [countByte e.count] ++ [crc8 cfg (e.pend ++ [countByte e.count])]) := by
  rw [Enc.buildFrame, Enc.pending_eq h.pend_length, Enc.checksum_eq_crc8 h]

/-- Settles O36: 5N + 2 escape-eligible bytes, each stuffed to one or two, between two delimiters. -/
theorem finalizedFrameLength : Obligations.FinalizedFrameLength := by
  intro s h raw
  have hraw : raw.length = 5 * s.enc.count + 2 := by simp [raw, h.pend_length]
  have hlen : (s.enc.buildFrame s.cfg).length =
      raw.length + 2 + raw.countP (isReserved s.cfg) := by
    rw [Enc.buildFrame_eq h, length_escapedFrame]
    rfl
  have hcount : raw.countP (isReserved s.cfg) ≤ raw.length := List.countP_le_length
  refine ⟨_, rfl, ?_, ?_, ?_, ?_⟩ <;> rw [State.completeEnc_enc, Enc.finalize_outLen]
  · omega
  · omega
  · omega
  · exact Enc.buildFrame_length_le h.wf

end Sys2Proof.Machine
end

section
/-! Byte sequences by steps, and the pseudo-operations (spec/30_encoding.md R110; spec/41_encoder.md R153, R159; R274): serving
the requests of an expansion does what the pseudo-operation does. -/

namespace Sys2Proof.Machine

variable {cfg : Config}

/-! ### Serving a byte sequence by steps -/

/-- The machine that steps through the bytes of a sequence runs its decoder over them, and touches nothing else. -/
theorem traceSteps_bytes (bytes : List Byte) : ∀ s : State, s.input = bytes.map .byte →
    ∃ u rs, traceSteps bytes.length s = .next (u, rs) ∧
      u.dec = (Dec.run s.cfg s.dec bytes).final ∧
      rs.map Response.event? = (Dec.run s.cfg s.dec bytes).events.map some ∧
      u.enc = s.enc ∧ u.cfg = s.cfg ∧ u.input = [] := by
  induction bytes with
  | nil => exact fun s hs => ⟨s, [], rfl, rfl, rfl, rfl, rfl, hs⟩
  | cons b bytes ih =>
    intro s hs
    obtain ⟨u, rs, htrace, hdec, hevents, henc, hcfg, hinput⟩ :=
      ih ((s.withInput (bytes.map .byte)).completeDec (s.dec.feed s.cfg b).1
        (.event (s.dec.feed s.cfg b).2)) rfl
    refine ⟨u, _ :: rs, traceSteps_succ (step_byte hs) htrace, hdec, ?_, henc, hcfg, hinput⟩
    rw [List.map_cons, hevents]
    rfl

/-- Settles O41: the equations of the fold, with the step that serves one byte, and the run by induction on the bytes. -/
theorem feedAllIsTheFoldOfFeed : Obligations.FeedAllIsTheFoldOfFeed := by
  refine fun s => ⟨rfl, fun b bytes => ⟨_, _, _, _, step_byte rfl, rfl, rfl, rfl, rfl⟩,
    fun bytes => ?_⟩
  have h := traceSteps_bytes bytes { s with input := bytes.map .byte } rfl
  rwa [← List.length_map (as := bytes) Request.byte] at h

/-! ### decode_first_message -/

/-- Events before the first `valid_message` do not change the result (R110). -/
theorem firstValidMessage_append {before : List DecodeEvent} (after : List DecodeEvent)
    (h : ∀ m, .validMessage m ∉ before) :
    firstValidMessage (before ++ after) = firstValidMessage after := by
  induction before with
  | nil => rfl
  | cons e before ih =>
    have ih := ih fun m hm => h m (List.mem_cons_of_mem e hm)
    cases e with
    | validMessage m => exact absurd List.mem_cons_self (h m)
    | _ => exact ih

theorem firstValidMessage_eq_none {es : List DecodeEvent} (h : ∀ m, .validMessage m ∉ es) :
    firstValidMessage es = none := by
  simpa [firstValidMessage] using firstValidMessage_append [] h

/-- Settles O42: both operations feed the power-on decoder, and the result is found past the events before it. -/
theorem decodeFirstMessageFeedsAFreshDecoder :
    Obligations.DecodeFirstMessageFeedsAFreshDecoder := by
  refine fun s bytes => ⟨_, _, _, rfl, rfl, rfl, firstValidMessage_eq_none, ?_⟩
  intro before m after hes hbefore
  rw [hes, firstValidMessage_append _ hbefore]
  rfl

/-! ### Serving an expansion -/

/-- Steps that are traced are the same steps, without what they return. -/
theorem runSteps_of_traceSteps (n : Nat) : ∀ {s u : State} {rs : List Response},
    traceSteps n s = .next (u, rs) → runSteps n s = .next u := by
  induction n with
  | zero =>
    intro s u rs h
    cases h
    rfl
  | succ n ih =>
    intro s u rs h
    simp only [traceSteps] at h
    rcases hs : step s with t | r | r <;> simp only [hs] at h
    case next =>
      rcases hn : traceSteps n t with v | r | r <;> simp only [hn] at h
      case next =>
        cases h
        simp only [runSteps, hs]
        exact ih hn
      all_goals cases h
    all_goals cases h

theorem serveAll_commands (s : State) (cs : List EncCommand) :
    ∃ u, serveAll s (cs.map EncCommand.request) = .next u ∧
      u.enc = (Enc.run s.cfg s.enc cs).final ∧ u.dec = s.dec ∧ u.cfg = s.cfg ∧ u.input = [] := by
  obtain ⟨u, rs, htrace, henc, -, -, hrest⟩ :=
    traceSteps_commands cs (s.withInput (cs.map EncCommand.request)) rfl
  refine ⟨u, ?_, henc, hrest⟩
  rw [serveAll, List.length_map]
  exact runSteps_of_traceSteps _ htrace

theorem serveAll_bytes (s : State) (bytes : List Byte) :
    ∃ u, serveAll s (bytes.map .byte) = .next u ∧ u.enc = s.enc ∧
      u.dec = (Dec.feedAll s.cfg s.dec bytes).1 ∧ u.cfg = s.cfg ∧ u.input = [] := by
  obtain ⟨u, rs, htrace, hdec, -, henc, hrest⟩ :=
    traceSteps_bytes bytes (s.withInput (bytes.map .byte)) rfl
  refine ⟨u, ?_, henc, hdec, hrest⟩
  rw [serveAll, List.length_map]
  exact runSteps_of_traceSteps _ htrace

/-! ### An expansion as a command trace -/

theorem Enc.run_final_append (cs cs' : List EncCommand) : ∀ e : Enc,
    (Enc.run cfg e (cs ++ cs')).final = (Enc.run cfg (Enc.run cfg e cs).final cs').final := by
  induction cs with
  | nil => exact fun _ => rfl
  | cons c cs ih => exact fun e => ih (e.command cfg c).1

theorem Enc.run_addMessages (ms : List Message) : ∀ e : Enc,
    (Enc.run cfg e (ms.map .addMessage)).final = (Enc.addBatch cfg e ms).1 := by
  induction ms with
  | nil => exact fun _ => rfl
  | cons m ms ih => exact fun e => ih (e.addMessage cfg m).1

/-- The command trace `encode` expands to (R159). -/
def encodeCommands (ms : List Message) : List EncCommand :=
  .reset :: (ms.map .addMessage ++ [.finalize])

theorem Enc.run_encodeCommands (cfg : Config) (e : Enc) (ms : List Message) :
    (Enc.run cfg e (encodeCommands ms)).final = e.encode cfg ms := by
  rw [encodeCommands, Enc.run_cons, Enc.run_final_append, Enc.run_addMessages]
  rfl

/-- ADD_BATCH is written as the requests of its ADD_MESSAGE commands (R153). -/
theorem encode_addBatch (cfg : Config) (ms : List Message) :
    encode cfg (.addBatch ms) = (ms.map EncCommand.addMessage).map EncCommand.request := by
  simp [encode, EncCommand.request]

theorem encode_encodeMessages (cfg : Config) (ms : List Message) :
    encode cfg (.encodeMessages ms) = (encodeCommands ms).map EncCommand.request := by
  simp [encode, encodeCommands, EncCommand.request]

/-- Settles O43: an expansion of encoder commands is a run of the encoder, one of bytes is a run of the decoder. -/
theorem pseudoOperationsAreTheirExpansions : Obligations.PseudoOperationsAreTheirExpansions := by
  intro i s hi
  rcases hi with ⟨ms, rfl⟩ | ⟨ms, rfl⟩ | ⟨bytes, rfl⟩ | ⟨⟨bytes, rfl⟩, hd⟩
  · obtain ⟨u, hserve, henc, hrest⟩ := serveAll_commands s (ms.map .addMessage)
    rw [← encode_addBatch s.cfg] at hserve
    exact ⟨_, u, rfl, hserve, henc.trans (Enc.run_addMessages ms s.enc), hrest⟩
  · obtain ⟨u, hserve, henc, hrest⟩ := serveAll_commands s (encodeCommands ms)
    rw [← encode_encodeMessages s.cfg] at hserve
    exact ⟨_, u, rfl, hserve, henc.trans (Enc.run_encodeCommands s.cfg s.enc ms), hrest⟩
  · obtain ⟨u, hserve, hrest⟩ := serveAll_bytes s bytes
    exact ⟨_, u, rfl, hserve, hrest⟩
  · obtain ⟨u, hserve, hrest⟩ := serveAll_bytes s bytes
    rw [hd] at hrest
    exact ⟨_, u, rfl, hserve, hrest⟩

end Sys2Proof.Machine
end

section
/-! The CRC-8 unit (spec/40_checksum.md R131 to R141): what each of its functions does bit by bit, that the register is linear in
what is folded into it, and what a single flipped bit becomes. -/

namespace Sys2Proof.Machine

variable {cfg : Config} {poly : Byte} {j k : Nat}

/-! ### Reflection (R133) -/

/-- Bits collected most significant first: the first one read ends up on top. -/
theorem testBit_foldl_range (b : Nat → Bool) (n : Nat) : ∀ k < n,
    ((List.range n).foldl (fun v i => 2 * v + (b i).toNat) 0).testBit k = b (n - 1 - k) := by
  induction n with
  | zero => exact fun k hk => absurd hk k.not_lt_zero
  | succ n ih =>
    intro k hk
    rw [List.range_succ, List.foldl_append, List.foldl_cons, List.foldl_nil, ← Nat.bit_val]
    cases k with
    | zero => exact Nat.testBit_bit_zero _ _
    | succ k =>
      rw [Nat.testBit_bit_succ, ih k (by omega)]
      congr 1
      omega

theorem getLsbD_reflect8 (x : Byte) (hk : k < 8) :
    (reflect8 x).getLsbD k = x.getLsbD (7 - k) := by
  rw [reflect8, BitVec.getLsbD_ofNat, testBit_foldl_range _ _ k hk]
  simp [hk]

theorem reflect8_xor (x y : Byte) : reflect8 (x ^^^ y) = reflect8 x ^^^ reflect8 y := by
  apply BitVec.eq_of_getLsbD_eq
  intro i hi
  simp [getLsbD_reflect8 _ hi]

theorem reflect8_injective {x y : Byte} (h : reflect8 x = reflect8 y) : x = y := by
  apply BitVec.eq_of_getLsbD_eq
  intro i hi
  have hbit := congrArg (fun r => r.getLsbD (7 - i)) h
  have h7 : 7 - (7 - i) = i := by omega
  simpa [getLsbD_reflect8 _ (show 7 - i < 8 by omega), h7] using hbit

/-! ### The register (R135) -/

/-- The shift with the generator's term made explicit: zero where the bit shifted out is 0. -/
theorem crcShift_eq (poly acc : Byte) :
    crcShift poly acc = acc <<< 1 ^^^ (if acc.msb then poly else 0) := by
  unfold crcShift
  split <;> simp

/-- Each bit after a shift is linear in the bits before it. -/
theorem getLsbD_crcShift (poly a : Byte) (i : Nat) :
    (crcShift poly a).getLsbD i =
      ((decide (i < 8) && !decide (i < 1) && a.getLsbD (i - 1)) ^^ (a.msb && poly.getLsbD i)) := by
  rw [crcShift_eq, BitVec.getLsbD_xor, BitVec.getLsbD_shiftLeft]
  cases a.msb <;> simp

theorem crcShift_xor (poly a d : Byte) :
    crcShift poly (a ^^^ d) = crcShift poly a ^^^ crcShift poly d := by
  apply BitVec.eq_of_getLsbD_eq
  intro i _
  simp only [getLsbD_crcShift, BitVec.getLsbD_xor, BitVec.msb_xor, Bool.and_xor_distrib_left,
    Bool.and_xor_distrib_right, Bool.xor_assoc, Bool.xor_left_comm]

theorem crcShift_zero (poly : Byte) : crcShift poly 0 = 0 := by simp [crcShift_eq]

theorem crcShifts_xor (poly : Byte) (n : Nat) : ∀ a d : Byte,
    crcShifts poly n (a ^^^ d) = crcShifts poly n a ^^^ crcShifts poly n d := by
  induction n with
  | zero => exact fun _ _ => rfl
  | succ n ih => intro a d; simp only [crcShifts, crcShift_xor, ih]

theorem crcShifts_zero (poly : Byte) (n : Nat) : crcShifts poly n 0 = 0 := by
  induction n with
  | zero => rfl
  | succ n ih => rw [crcShifts, crcShift_zero, ih]

theorem crcShifts_add (poly : Byte) (m n : Nat) : ∀ a : Byte,
    crcShifts poly (m + n) a = crcShifts poly n (crcShifts poly m a) := by
  induction m with
  | zero => intro a; rw [Nat.zero_add]; rfl
  | succ m ih => intro a; rw [Nat.succ_add]; exact ih _

theorem crcShifts_eq_iterate (poly : Byte) (n : Nat) : ∀ a : Byte,
    crcShifts poly n a = (crcShift poly)^[n] a := by
  induction n with
  | zero => exact fun _ => rfl
  | succ n ih => exact fun a => ih _

/-- What of an input byte the register is XORed with (R133, R135). -/
def crcInput (cfg : Config) (b : Byte) : Byte := if cfg.crcRefin then reflect8 b else b

theorem crcByte_eq (cfg : Config) (a b : Byte) :
    crcByte cfg a b = crcShifts cfg.crcPoly 8 (a ^^^ crcInput cfg b) := rfl

theorem crcInput_xor (cfg : Config) (b e : Byte) :
    crcInput cfg (b ^^^ e) = crcInput cfg b ^^^ crcInput cfg e := by
  unfold crcInput
  split
  · exact reflect8_xor b e
  · rfl

@[simp] theorem crcUpdate_nil (cfg : Config) (a : Byte) : crcUpdate cfg a [] = a := rfl

@[simp] theorem crcUpdate_cons (cfg : Config) (a b : Byte) (l : List Byte) :
    crcUpdate cfg a (b :: l) = crcUpdate cfg (crcByte cfg a b) l := rfl

/-- A difference in the register is shifted along, whatever bytes are folded in after it. -/
theorem crcUpdate_xor (cfg : Config) (l : List Byte) : ∀ a d : Byte,
    crcUpdate cfg (a ^^^ d) l = crcUpdate cfg a l ^^^ crcShifts cfg.crcPoly (8 * l.length) d := by
  induction l with
  | nil => exact fun _ _ => rfl
  | cons b l ih =>
    intro a d
    have hbyte : crcByte cfg (a ^^^ d) b = crcByte cfg a b ^^^ crcShifts cfg.crcPoly 8 d := by
      rw [crcByte_eq, crcByte_eq, ← crcShifts_xor]
      congr 1
      ac_rfl
    rw [crcUpdate_cons, hbyte, ih, ← crcShifts_add, crcUpdate_cons, List.length_cons]
    congr 2
    omega

/-- A difference in one byte is a difference in the register once that byte is folded in. -/
theorem crcUpdate_xor_byte (cfg : Config) (a : Byte) (p q : List Byte) (x e : Byte) :
    crcUpdate cfg a (p ++ [x ^^^ e] ++ q) =
      crcUpdate cfg a (p ++ [x] ++ q) ^^^
        crcShifts cfg.crcPoly (8 + 8 * q.length) (crcInput cfg e) := by
  simp only [crcUpdate_append, crcUpdate_cons, crcUpdate_nil]
  rw [crcByte_eq, crcInput_xor, ← BitVec.xor_assoc, crcShifts_xor, ← crcByte_eq, crcUpdate_xor,
    crcShifts_add]

theorem crcFinalize_injective (cfg : Config) {a b : Byte}
    (h : crcFinalize cfg a = crcFinalize cfg b) : a = b := by
  have hx := (BitVec.xor_left_inj _).1 h
  split at hx
  · exact reflect8_injective hx
  · exact hx

/-! ### The terms of a byte, as a polynomial -/

/-- `x^m` is the lowest term of `b`: its lowest bit that is set. -/
def LowestTerm (m : Nat) (b : Byte) : Prop := b.getLsbD m = true ∧ ∀ i < m, b.getLsbD i = false

theorem exists_lowestTerm {b : Byte} (h : b ≠ 0) : ∃ m, LowestTerm m b := by
  have hbit : ∃ m, b.getLsbD m = true := by
    by_contra hnone
    exact h (BitVec.eq_of_getLsbD_eq fun i _ => by simpa using (not_exists.1 hnone) i)
  exact ⟨Nat.find hbit, Nat.find_spec hbit, fun i hi => by simpa using Nat.find_min hbit hi⟩

theorem LowestTerm.ne_zero {m : Nat} {b : Byte} (h : LowestTerm m b) : b ≠ 0 := by
  rintro rfl
  simp [LowestTerm] at h

theorem LowestTerm.lt {m : Nat} {b : Byte} (h : LowestTerm m b) : m < 8 :=
  BitVec.lt_of_getLsbD h.1

/-- Up to the lowest term's place a shift leaves the generator's bits, where it brings in the generator, and else zeros. -/
theorem LowestTerm.getLsbD_crcShift_of_le {m i : Nat} {d : Byte} (hd : LowestTerm m d) (hi : i ≤ m) :
    (crcShift poly d).getLsbD i = (d.msb && poly.getLsbD i) := by
  rw [getLsbD_crcShift]
  cases i with
  | zero => simp
  | succ i => simp [hd.2 i hi]

/-- A shift moves the lowest term up by one, unless it brings in the generator's: that one is not cancelled when it stands no
higher than the term before the shift. -/
theorem LowestTerm.exists_crcShift {m : Nat} {d : Byte} (hp : LowestTerm j poly) (hd : LowestTerm m d)
    (hjm : j ≤ m) : ∃ n, j ≤ n ∧ LowestTerm n (crcShift poly d) := by
  obtain ⟨hpj, hplow⟩ := hp
  rcases hmsb : d.msb with _ | _
  · have hm7 : m ≠ 7 := by
      rintro rfl
      rw [BitVec.msb_eq_getLsbD_last, hd.1] at hmsb
      cases hmsb
    have hm8 : m + 1 < 8 := by have := hd.lt; omega
    refine ⟨m + 1, by omega, ?_, fun i hi => ?_⟩
    · simp [getLsbD_crcShift, hmsb, hd.1, hm8]
    · simp [hd.getLsbD_crcShift_of_le (Nat.le_of_lt_succ hi), hmsb]
  · refine ⟨j, le_rfl, ?_, fun i hi => ?_⟩
    · simp [hd.getLsbD_crcShift_of_le hjm, hmsb, hpj]
    · simp [hd.getLsbD_crcShift_of_le (hi.le.trans hjm), hplow i hi]

/-! ### A single flipped bit (R140) -/

theorem xor_ne_self {d : Byte} (h : d ≠ 0) (a : Byte) : a ^^^ d ≠ a := fun heq =>
  h ((BitVec.xor_right_inj a).1 (heq.trans BitVec.xor_zero.symm))

theorem getLsbD_oneShl (hk : k < 8) (i : Nat) : (1#8 <<< k).getLsbD i = decide (k = i) := by
  rw [← BitVec.twoPow, BitVec.getLsbD_twoPow, decide_eq_true hk, Bool.true_and]

theorem lowestTerm_oneShl (hk : k < 8) : LowestTerm k (1#8 <<< k) :=
  ⟨by simp [getLsbD_oneShl hk], fun i hi => by simp [getLsbD_oneShl hk]; omega⟩

theorem reflect8_oneShl (hk : k < 8) : reflect8 (1#8 <<< k) = 1#8 <<< (7 - k) := by
  apply BitVec.eq_of_getLsbD_eq
  intro i hi
  rw [getLsbD_reflect8 _ hi, getLsbD_oneShl hk, getLsbD_oneShl (by omega)]
  exact decide_eq_decide.2 (by omega)

/-- What a flipped bit can become in the register, where `x^j` is the generator's lowest term: a single bit until it is shifted
out, and from then on a nonzero multiple of `x^j`. -/
def BitError (j : Nat) (d : Byte) : Prop :=
  (∃ k < 8, d = 1#8 <<< k) ∨ ∃ m, j ≤ m ∧ LowestTerm m d

theorem BitError.ne_zero {d : Byte} (h : BitError j d) : d ≠ 0 := by
  rcases h with ⟨k, hk, rfl⟩ | ⟨m, -, hm⟩
  · exact (lowestTerm_oneShl hk).ne_zero
  · exact hm.ne_zero

theorem bitError_crcInput (cfg : Config) (j : Nat) (hk : k < 8) :
    BitError j (crcInput cfg (1#8 <<< k)) := by
  unfold crcInput
  split
  · exact .inl ⟨7 - k, by omega, reflect8_oneShl hk⟩
  · exact .inl ⟨k, hk, rfl⟩

/-- The bit shifted out leaves the generator itself. -/
theorem crcShift_topBit (poly : Byte) : crcShift poly (1#8 <<< 7) = poly := by
  rw [crcShift_eq, show (1#8 <<< 7).msb = true from rfl]
  exact BitVec.zero_xor

theorem crcShift_oneShl (poly : Byte) (hk : k < 7) :
    crcShift poly (1#8 <<< k) = 1#8 <<< (k + 1) := by
  have hmsb : (1#8 <<< k).msb = false := by
    rw [BitVec.msb_eq_getLsbD_last, getLsbD_oneShl (by omega)]
    exact decide_eq_false (by omega)
  rw [crcShift_eq, hmsb, BitVec.shiftLeft_add]
  exact BitVec.xor_zero

theorem BitError.crcShift {d : Byte} (hp : LowestTerm j poly) (h : BitError j d) :
    BitError j (crcShift poly d) := by
  rcases h with ⟨k, hk, rfl⟩ | ⟨m, hjm, hm⟩
  · rcases Nat.lt_or_eq_of_le (Nat.le_of_lt_succ hk) with hk7 | rfl
    · exact .inl ⟨k + 1, by omega, crcShift_oneShl poly hk7⟩
    · exact .inr ⟨j, le_rfl, (crcShift_topBit poly).symm ▸ hp⟩
  · exact .inr (LowestTerm.exists_crcShift hp hm hjm)

theorem BitError.crcShifts (hp : LowestTerm j poly) (n : Nat) :
    ∀ {d : Byte}, BitError j d → BitError j (crcShifts poly n d) := by
  induction n with
  | zero => exact fun h => h
  | succ n ih => exact fun h => ih (h.crcShift hp)

/-! ### The statements about the checksum -/

/-- Settles O44: the primitive's meaning, and nothing else. -/
theorem crcInitReturnsTheInitialValue : Obligations.CrcInitReturnsTheInitialValue := fun _ => rfl

/-- Settles O45: the model's shift is the written-out one, and its eight shifts are an iterate. -/
theorem crcUpdateRunsTheBitwiseEngine : Obligations.CrcUpdateRunsTheBitwiseEngine := by
  intro s acc bytes shift fold
  have hshift : crcShift s.cfg.crcPoly = shift := by
    funext a
    have hmask : (a <<< 1) &&& 0xFF#8 = a <<< 1 := BitVec.and_allOnes
    simp only [shift, hmask, crcShift, BitVec.msb_eq_getLsbD_last]
  have hfold : crcByte s.cfg = fold := by
    funext a b
    rw [crcByte_eq, crcShifts_eq_iterate, hshift]
    rfl
  rw [← hfold]
  rfl

/-- Settles O46: the primitive's meaning, and the reflection bit by bit. -/
theorem crcFinalizeReflectsAndXors : Obligations.CrcFinalizeReflectsAndXors :=
  fun _ acc => ⟨rfl, fun _ hk => getLsbD_reflect8 acc hk⟩

/-- Settles O47: a fold over an append. -/
theorem crcFoldLaw : Obligations.CrcFoldLaw := fun cfg a s t =>
  ⟨(crcUpdate_append cfg a s t).symm, crcUpdate_nil cfg a⟩

/-- The register after each digit of the check string (R138). -/
theorem crcUpdate_reference_digits :
    crcUpdate .reference 0x00 [0x31, 0x32, 0x33, 0x34, 0x35, 0x36, 0x37, 0x38, 0x39] = 0xF4 := by
  have h31 : crcByte .reference 0x00 0x31 = 0x97 := by decide
  have h32 : crcByte .reference 0x97 0x32 = 0x72 := by decide
  have h33 : crcByte .reference 0x72 0x33 = 0xC0 := by decide
  have h34 : crcByte .reference 0xC0 0x34 = 0xC2 := by decide
  have h35 : crcByte .reference 0xC2 0x35 = 0xCB := by decide
  have h36 : crcByte .reference 0xCB 0x36 = 0xFD := by decide
  have h37 : crcByte .reference 0xFD 0x37 = 0x78 := by decide
  have h38 : crcByte .reference 0x78 0x38 = 0xC7 := by decide
  have h39 : crcByte .reference 0xC7 0x39 = 0xF4 := by decide
  simp only [crcUpdate_cons, crcUpdate_nil, h31, h32, h33, h34, h35, h36, h37, h38, h39]

/-- Settles O48: the parameters as given, and the check value, which no final reflection or XOR changes. -/
theorem crcReferenceCheckValue : Obligations.CrcReferenceCheckValue :=
  ⟨rfl, rfl, rfl, rfl, rfl, congrArg (crcFinalize .reference) crcUpdate_reference_digits⟩

/-- Settles O49: the registers differ by the flipped bit shifted along, and no shift makes that zero. -/
theorem crcDetectsEverySingleBitError : Obligations.CrcDetectsEverySingleBitError := by
  intro cfg p q x k hk heq
  obtain ⟨j, hp⟩ := exists_lowestTerm cfg.poly_ne_zero
  have herr := (bitError_crcInput cfg j hk).crcShifts hp (8 + 8 * q.length)
  have hacc := crcFinalize_injective cfg heq
  rw [crcUpdate_xor_byte] at hacc
  exact xor_ne_self herr.ne_zero _ hacc.symm

/-- Settles O51: without reflection and XOROUT the checksum is the register itself, which its own byte clears. -/
theorem crcResidueIsZero : Obligations.CrcResidueIsZero := by
  intro cfg s hxor hin hout
  have hcrc : crc8 cfg s = crcUpdate cfg (crcInit cfg) s := by simp [crc8, crcFinalize, hout, hxor]
  have hin : ∀ b, crcInput cfg b = b := fun _ => if_neg (by simp [hin])
  rw [crcUpdate_append, hcrc, crcUpdate_cons, crcUpdate_nil, crcByte_eq, hin, BitVec.xor_self]
  exact crcShifts_zero _ 8

/-! ### A single flipped bit in a buffered frame (R140, R220) -/

theorem validate_of_length_ne {body : List Byte} {count chk : Byte}
    (h : count.toNat * 5 + 2 ≠ (body ++ [count, chk]).length) :
    validate cfg (body ++ [count, chk]) = (.invalidMessage .lengthError, none) := by
  rw [validate, frameTail_append]
  exact if_pos h

theorem validate_of_crc8_ne {body : List Byte} {count chk : Byte}
    (hlen : count.toNat * 5 + 2 = (body ++ [count, chk]).length)
    (hcrc : crc8 cfg (body ++ [count]) ≠ chk) :
    validate cfg (body ++ [count, chk]) = (.invalidMessage .checksumError, none) := by
  have hdrop : (body ++ [count, chk]).dropLast = body ++ [count] := by simp
  rw [validate, frameTail_append, hdrop]
  simp only
  rw [if_neg (not_not.2 hlen), if_pos hcrc]

/-- Settles O50: a flip in the section is O49 at a frame of the right length, a flip in COUNT changes that length. -/
theorem singleBitFlipsAreNeverValid : Obligations.SingleBitFlipsAreNeverValid := by
  intro cfg p q x count chk k hk hlen hcrc
  constructor
  · apply validate_of_crc8_ne
    · simpa using hlen
    · rw [← hcrc, List.append_assoc _ q, List.append_assoc _ q]
      exact (crcDetectsEverySingleBitError cfg p (q ++ [count]) x k hk).symm
  · apply validate_of_length_ne
    intro hflip
    have hlens : (count ^^^ (1#8 <<< k)).toNat = count.toNat := by
      simp only [List.length_append, List.length_cons, List.length_nil] at hlen hflip
      omega
    exact xor_ne_self (lowestTerm_oneShl hk).ne_zero count (BitVec.eq_of_toNat_eq hlens)

end Sys2Proof.Machine
end

section
/-! The encoder's operations (spec/41_encoder.md R150 to R159): what a batch leaves and returns, and the frame FINALIZE and
`encode` emit. -/

namespace Sys2Proof.Machine

variable {cfg : Config} {e : Enc}

/-! ### ADD_MESSAGE and ADD_BATCH -/

theorem exec_addMessage (s : State) (m : Message) :
    exec (.addMessage m) s = .next (s.completeEnc (s.enc.addMessage s.cfg m).1
      (.status (s.enc.addMessage s.cfg m).2)) := rfl

@[simp] theorem Enc.addBatch_nil (cfg : Config) (e : Enc) : Enc.addBatch cfg e [] = (e, []) := rfl

theorem Enc.addBatch_cons (cfg : Config) (e : Enc) (m : Message) (ms : List Message) :
    Enc.addBatch cfg e (m :: ms) =
      ((Enc.addBatch cfg (e.addMessage cfg m).1 ms).1,
        (e.addMessage cfg m).2 :: (Enc.addBatch cfg (e.addMessage cfg m).1 ms).2) := rfl

/-- Everything a batch does: below the capacity its first message is accepted and leaves one place less, at the capacity it is
rejected and leaves the encoder as it is (R153). -/
theorem Enc.addBatch_eq (ms : List Message) : ∀ {e : Enc}, e.count ≤ cfg.encMaxMsgs →
    e.pend.length = 5 * e.count →
    Enc.addBatch cfg e ms =
      ({ e with
          pend := e.pend ++ (ms.take (cfg.encMaxMsgs - e.count)).flatMap Message.bytes
          acc := crcUpdate cfg e.acc ((ms.take (cfg.encMaxMsgs - e.count)).flatMap Message.bytes)
          count := e.count + (ms.take (cfg.encMaxMsgs - e.count)).length },
        List.replicate (ms.take (cfg.encMaxMsgs - e.count)).length .ok ++
          List.replicate (ms.length - (cfg.encMaxMsgs - e.count)) .capacityOverrun) := by
  induction ms with
  | nil => intro e _ _; simp
  | cons m ms ih =>
    intro e hc hp
    rcases hc.lt_or_eq with hlt | hfull
    · have hroom : cfg.encMaxMsgs - e.count = cfg.encMaxMsgs - (e.count + 1) + 1 := by omega
      have hp' : (e.pend ++ m.bytes).length = 5 * (e.count + 1) := by simp [hp]; omega
      rw [Enc.addBatch_cons, Enc.addMessage_accepted m hp hlt, ih (Nat.succ_le_of_lt hlt) hp', hroom]
      simp [crcUpdate_append, List.replicate_succ]
      omega
    · rw [Enc.addBatch_cons, Enc.addMessage_rejected m hfull.ge, ih hc hp]
      simp [hfull, List.replicate_succ]

/-- The messages past the capacity leave no trace in the encoder. -/
theorem Enc.addBatch_take (ms : List Message) (hc : e.count ≤ cfg.encMaxMsgs)
    (hp : e.pend.length = 5 * e.count) :
    (Enc.addBatch cfg e (ms.take (cfg.encMaxMsgs - e.count))).1 = (Enc.addBatch cfg e ms).1 := by
  rw [Enc.addBatch_eq _ hc hp, Enc.addBatch_eq ms hc hp, List.take_take, Nat.min_self]

/-! ### FINALIZE and encode -/

theorem toNat_countByte {n : Nat} (h : n ≤ cfg.encMaxMsgs) : (countByte n).toNat = n :=
  Nat.mod_eq_of_lt (Nat.lt_of_le_of_lt (h.trans cfg.maxMsgs_le) (by decide))

/-- The owner reads the whole frame that FINALIZE built (R154, R158). -/
theorem Enc.readOut_finalize (cfg : Config) (e : Enc) :
    (e.finalize cfg).readOut = e.buildFrame cfg := Enc.readOut_eq rfl

theorem exec_finalize (s : State) :
    exec .finalize s = .next (s.completeEnc (s.enc.finalize s.cfg)
      (.frame .ok (s.enc.buildFrame s.cfg) (s.enc.buildFrame s.cfg).length)) := by
  rw [← Enc.finalize_outLen, ← Enc.readOut_finalize]
  rfl

/-- FINALIZE's result depends on the pending bytes, their count and the accumulator alone (R154, R156). -/
theorem Enc.finalize_eq (cfg : Config) (e : Enc) :
    e.finalize cfg =
      { pend := [], count := 0, acc := crcInit cfg
        out := e.buildFrame cfg, outLen := (e.buildFrame cfg).length } := rfl

/-- The escaped frame of a list of messages: their bytes and their number, and the checksum of both (R159). -/
def messagesFrame (cfg : Config) (ms : List Message) : List Byte :=
  escapedFrame cfg (ms.flatMap Message.bytes ++ [countByte ms.length] ++
    [crc8 cfg (ms.flatMap Message.bytes ++ [countByte ms.length])])

theorem length_flatMap_bytes (ms : List Message) :
    (ms.flatMap Message.bytes).length = 5 * ms.length := by
  simp [List.length_flatMap, Nat.mul_comm]

/-- An encoder whose working state is that of a list of messages builds their frame. -/
theorem Enc.buildFrame_of_messages {ms : List Message} (hp : e.pend = ms.flatMap Message.bytes)
    (hc : e.count = ms.length) (ha : e.acc = crcUpdate cfg (crcInit cfg) e.pend) :
    e.buildFrame cfg = messagesFrame cfg ms := by
  have hlen : e.pend.length = 5 * e.count := by rw [hp, hc, length_flatMap_bytes]
  rw [Enc.buildFrame, Enc.pending_eq hlen, Enc.checksum, ha, ← crcUpdate_append, hp, hc]
  rfl

theorem Enc.encode_eq (e : Enc) {ms : List Message} (h : ms.length ≤ cfg.encMaxMsgs) :
    e.encode cfg ms =
      { pend := [], count := 0, acc := crcInit cfg
        out := messagesFrame cfg ms, outLen := (messagesFrame cfg ms).length } := by
  have hbatch := Enc.addBatch_eq (e := e.workReset cfg) ms (Nat.zero_le cfg.encMaxMsgs) rfl
  have hframe : (Enc.addBatch cfg (e.workReset cfg) ms).1.buildFrame cfg = messagesFrame cfg ms := by
    apply Enc.buildFrame_of_messages <;> simp [hbatch, List.take_of_length_le h]
  rw [Enc.encode, Enc.finalize_eq, hframe]

theorem exec_encodeMessages_of_le (s : State) {ms : List Message}
    (h : ms.length ≤ s.cfg.encMaxMsgs) :
    exec (.encodeMessages ms) s =
      .next (s.completeEnc (s.enc.encode s.cfg ms) (.encoded (some (messagesFrame s.cfg ms)))) := by
  have hread : (s.enc.encode s.cfg ms).readOut = messagesFrame s.cfg ms := by
    rw [Enc.encode_eq s.enc h, Enc.readOut_eq rfl]
  rw [exec, execEncodeMessages, if_pos h, hread]

/-! ### The statements about the encoder -/

/-- Settles O31: the command's meaning, and nothing else. -/
theorem encResetClearsTheWorkingState : Obligations.EncResetClearsTheWorkingState := fun _ => rfl

/-- Settles O32: the append fits the pending buffer. -/
theorem addMessageAppendsFoldsAndCounts : Obligations.AddMessageAppendsFoldsAndCounts := by
  intro s m hc hp
  rw [exec_addMessage, Enc.addMessage_accepted m hp hc]
  rfl

/-- Settles O34: the frame as the model builds it, its checksum by R23 and its length by O36. -/
theorem finalizeEmitsTheEscapedFrame : Obligations.FinalizeEmitsTheEscapedFrame := by
  intro s hp n chk out
  have hout : s.enc.buildFrame s.cfg = out := by
    rw [Enc.buildFrame, Enc.pending_eq hp]
    rfl
  refine ⟨?_, fun h => ?_⟩
  · rw [exec_finalize, Enc.finalize_eq, hout]
    rfl
  · obtain ⟨t, ht, -, hmin, hmax, hcap⟩ := finalizedFrameLength s h
    cases ht
    rw [State.completeEnc_enc, Enc.finalize_outLen, hout] at hmin hmax hcap
    exact ⟨toNat_countByte h.count_le, Enc.checksum_eq_crc8 h, hmin, hmax, hcap⟩

/-- Settles O33: the rejection is the whole step, and each of the two resets leaves room for a message. -/
theorem addMessageAtCapacityIsRejected : Obligations.AddMessageAtCapacityIsRejected := by
  intro s m hfull
  refine ⟨?_, fun h => ⟨_, rfl, ?_⟩, ?_⟩
  · rw [exec_addMessage, Enc.addMessage_rejected m hfull.ge]
    rfl
  · have hframe := Enc.buildFrame_eq h
    rw [hfull] at hframe
    exact hframe
  · rintro i t m' (rfl | rfl) hpos h <;> cases h <;>
      exact ⟨_, addMessageAppendsFoldsAndCounts _ m' hpos rfl, rfl⟩

/-- Settles O35: no pending bytes, so the section is the COUNT byte alone. -/
theorem finalizeWithNothingPending : Obligations.FinalizeWithNothingPending := by
  intro s h hc
  have hpend : s.enc.pend = [] := List.eq_nil_of_length_eq_zero (by rw [h.pend_length, hc])
  have hframe := Enc.buildFrame_eq h
  rw [hpend, hc] at hframe
  refine ⟨_, rfl, hframe, rfl, fun href => ?_⟩
  have hbytes : s.enc.buildFrame s.cfg = [0x0D, 0x00, 0x00, 0x0A] := by
    rw [hframe, href]
    decide
  exact ⟨hbytes, congrArg List.length hbytes⟩

/-- Settles O37: the closed form of a batch. -/
theorem addBatchAcceptsWhatFits : Obligations.AddBatchAcceptsWhatFits := by
  intro s ms hc hp room fit
  rw [exec, execAddBatch, Enc.addBatch_eq ms hc hp]
  rfl

/-- Settles O38: after the reset the batch fits whole, and its working state is that of its messages. -/
theorem encodeClosedForm : Obligations.EncodeClosedForm := by
  intro s ms h body out
  rw [exec_encodeMessages_of_le s h, Enc.encode_eq s.enc h]
  rfl

/-- Settles O39: the messages past the capacity are rejected without a trace, so FINALIZE emits the same frame. -/
theorem encodeBeyondCapacityDenotesNothing : Obligations.EncodeBeyondCapacityDenotesNothing := by
  intro s ms h
  refine ⟨_, _, rfl, congrArg Response.encoded (if_neg (Nat.not_le.2 h)), rfl, ?_, rfl⟩
  have htake := Enc.addBatch_take (e := s.enc.workReset s.cfg) ms (Nat.zero_le s.cfg.encMaxMsgs) rfl
  exact congrArg (Enc.finalize s.cfg) htake.symm

end Sys2Proof.Machine
end

section
/-! The decoder's operations (spec/42_decoder.md R180 to R194): where a FEED row runs and what it leaves, which steps enter and
leave a frame, and that a START erases what came before it. -/

namespace Sys2Proof.Machine

variable {cfg : Config} {d : Dec} {b : Byte}

/-! ### Where a FEED row runs (R181, R192) -/

/-- A FEED row of its class, in its context, completes with what FEED of its byte gives. -/
theorem exec_feedRow_of_feed {i : Instr} {s : State} {d : Dec} {e : DecodeEvent}
    (hb : i.inputByte? s.cfg = some b) (hw : i.wellFormed s.cfg = true)
    (ha : i.appliesIn (s.dec.context s.cfg) = true) (hf : s.dec.feed s.cfg b = (d, e)) :
    exec i s = .next { s with dec := d, resp := .event e } := by
  rw [exec_feedRow hb, if_pos (selectRow_instr_of_wellFormed hb hw ha), hf]
  rfl

/-- Settles O23: a row runs where R181 selects it, which is in its context and for a byte of its class. -/
theorem feedRowsRunExactlyInTheirContext : Obligations.FeedRowsRunExactlyInTheirContext := by
  intro i s hi
  obtain ⟨b, hb⟩ := Option.isSome_iff_exists.1 hi
  rw [exec_feedRow hb]
  split
  case isTrue hsel =>
    obtain ⟨-, hw, ha⟩ := selectRow_instr_eq_iff.1 hsel
    exact ⟨⟨fun _ => ⟨hw, ha⟩, fun _ => ⟨_, rfl⟩⟩, fun h => absurd rfl (h _)⟩
  case isFalse hsel =>
    exact ⟨⟨fun ⟨_, h⟩ => (nomatch h), fun ⟨hw, ha⟩ =>
      absurd (selectRow_instr_of_wellFormed hb hw ha) hsel⟩, fun _ => rfl⟩

/-- Settles O24: the step that serves a byte is FEED of that byte. -/
theorem feedIsTotalAndLocal : Obligations.FeedIsTotalAndLocal := by
  refine fun cfg d b => ⟨(d.feed cfg b).1, (d.feed cfg b).2, ?_⟩
  rintro s rest rfl rfl hinput
  exact step_byte hinput

/-! ### Entering and leaving a frame (R191) -/

/-- A byte that fits the buffer does not end the frame, whatever the buffer holds. -/
theorem Dec.append_state (x : Byte) (hl : d.len < cfg.decCap) :
    (d.append cfg x).1.state = d.state := by
  have hroom : d.len + [x].length ≤ cfg.decCap := hl
  rw [Dec.append, memWrite, if_pos hroom]

/-- Inside a frame, FEED ends it only on END or on the overrun. -/
theorem feed_leaves_frame (hs : d.state = .inFrame)
    (h : (d.feed cfg b).1.state = .awaitingStart) :
    b = cfg.endByte ∨ (b ∉ cfg.reserved ∧ cfg.decCap ≤ d.len ∧
      (d.feed cfg b).2 = .invalidMessage .capacityOverrun) := by
  rcases feed_cases cfg d b with ⟨ha, -, -⟩ | ⟨ha, -, -⟩ | ⟨-, -, hf⟩ | ⟨-, -, hf⟩ | ⟨-, hb, -⟩ |
    ⟨-, -, -, hl, hf⟩ | ⟨-, -, -, hl, hf⟩ | ⟨-, hb, hl, hf⟩
  · cases hs.symm.trans ha
  · cases hs.symm.trans ha
  · rw [hf] at h
    cases h
  · rw [hf] at h
    cases hs.symm.trans h
  · exact .inl hb
  · rw [hf, Dec.frameData, Dec.append_state _ hl] at h
    cases hs.symm.trans h
  · rw [hf, Dec.frameEscdata, Dec.append_state (d := { d with esc := false }) _ hl] at h
    cases hs.symm.trans h
  · exact .inr ⟨hb, hl, congrArg Prod.snd hf⟩

/-- Outside a frame, FEED opens one only on START. -/
theorem feed_enters_frame (hs : d.state = .awaitingStart) (h : (d.feed cfg b).1.state = .inFrame) :
    b = cfg.startByte := by
  by_contra hb
  rw [feed_awaitOther hs hb] at h
  cases hs.symm.trans h

/-- Everything a step can do to the decoder: FEED of the byte it serves, the reset it serves, or nothing (R74, R180, R192). -/
theorem step_dec_cases {s t : State} (h : step s = .next t) :
    (∃ b rest, s.input = .byte b :: rest ∧ t.dec = (s.dec.feed s.cfg b).1 ∧
      t.resp = .event (s.dec.feed s.cfg b).2) ∨
    (∃ rest, s.input = .decReset :: rest ∧ t.dec = s.dec.workReset) ∨ t.dec = s.dec := by
  rcases step_cases h with ⟨-, rfl⟩ | ⟨b, rest, hinput, rfl⟩ | ⟨rest, hinput, rfl⟩ |
    ⟨code, operand, rest, i, -, hd, hx⟩
  · exact .inr (.inr rfl)
  · exact .inl ⟨b, rest, hinput, rfl, rfl⟩
  · exact .inr (.inl ⟨rest, hinput, rfl⟩)
  · rcases decodeCommand_cases hd with ⟨rfl, -⟩ | ⟨m, rfl, -⟩ | ⟨rfl, -⟩ | ⟨rfl, -⟩ <;> cases hx <;>
      exact .inr (.inr rfl)

/-- Settles O25: of what a step can do to the decoder, only FEED and DEC_RESET change its state. -/
theorem frameIsLeftOnlyOnEndOverrunOrReset : Obligations.FrameIsLeftOnlyOnEndOverrunOrReset := by
  intro s t h
  rcases step_dec_cases h with ⟨b, rest, hinput, hdec, hresp⟩ | ⟨rest, hinput, hdec⟩ | hdec <;>
    rw [hdec]
  · refine ⟨fun hs ht => ⟨rest, ?_⟩, fun hs ht => ⟨rest, feed_enters_frame hs ht ▸ hinput⟩⟩
    rcases feed_leaves_frame hs ht with rfl | ⟨hb, hl, hevent⟩
    · exact .inl hinput
    · exact .inr (.inr ⟨b, hinput, hb, hl, hevent ▸ hresp⟩)
  · exact ⟨fun _ _ => ⟨rest, .inr (.inl hinput)⟩, fun _ ht => nomatch ht⟩
  · exact ⟨fun hs ht => (nomatch hs.symm.trans ht), fun hs ht => (nomatch hs.symm.trans ht)⟩

/-! ### A START erases the history (R194) -/

/-- The decoder with another last message. -/
def Dec.withLast (d : Dec) (l : Option Message) : Dec := { d with last := l }

theorem Dec.append_withLast (d : Dec) (l : Option Message) (x : Byte) :
    (d.withLast l).append cfg x = ((d.append cfg x).1.withLast l, (d.append cfg x).2) := by
  unfold Dec.append Dec.withLast
  dsimp only
  split <;> rfl

/-- FEED never reads the last message: another one changes nothing but the last message after it. -/
theorem feed_withLast (d : Dec) (l : Option Message) (b : Byte) :
    ∃ l', (d.withLast l).feed cfg b = ((d.feed cfg b).1.withLast l', (d.feed cfg b).2) := by
  have hctx : (d.withLast l).context cfg = d.context cfg := rfl
  rw [Dec.feed, Dec.feed, hctx]
  rcases selectRow cfg (d.context cfg) b
  case frameEnd => simp only [frameEnd_eq]; exact ⟨_, rfl⟩
  case frameData => exact ⟨l, Dec.append_withLast d l b⟩
  case frameEscdata => exact ⟨l, Dec.append_withLast { d with esc := false } l (complement b)⟩
  all_goals exact ⟨l, rfl⟩

theorem feedAll_withLast (bytes : List Byte) : ∀ (d : Dec) (l : Option Message),
    ∃ l', Dec.feedAll cfg (d.withLast l) bytes =
      ((Dec.feedAll cfg d bytes).1.withLast l', (Dec.feedAll cfg d bytes).2) := by
  induction bytes with
  | nil => exact fun _ l => ⟨l, rfl⟩
  | cons b bytes ih =>
    intro d l
    obtain ⟨lnext, hfeed⟩ := feed_withLast (cfg := cfg) d l b
    obtain ⟨l', hrest⟩ := ih (d.feed cfg b).1 lnext
    exact ⟨l', by simp only [feedAll_cons, hfeed, hrest]⟩

/-- A START opens an empty frame from either state; only its event tells which (R182, R184). -/
theorem feed_start (cfg : Config) (d : Dec) :
    d.feed cfg cfg.startByte = (d.awaitStart.1,
      if d.state = .awaitingStart then .frameStarted else .frameRestarted) := by
  rcases hs : d.state with _ | _
  · exact feed_awaitStart hs
  · exact feed_frameStart hs

/-- Settles O26: after a START two decoders differ in their last messages alone, which FEED never reads. -/
theorem startErasesTheDecodersHistory : Obligations.StartErasesTheDecodersHistory := by
  intro cfg d d' bytes
  have hopen : d'.awaitStart.1 = d.awaitStart.1.withLast d'.last := rfl
  simp only [feedAll_cons, feed_start]
  obtain ⟨l, hrest⟩ := feedAll_withLast (cfg := cfg) bytes d.awaitStart.1 d'.last
  have hsame (hlast : d.last = d'.last) : d'.awaitStart.1 = d.awaitStart.1 := by
    rw [hopen, ← hlast]
    rfl
  refine ⟨?_, ?_, ?_, ?_, ?_, fun hlast => by rw [hsame hlast], rfl⟩
  all_goals
    rw [hopen, hrest]
    rfl

/-! ### Each row and the reset as an instruction (R180, R182 to R189) -/

/-- Settles O14, by FEED's row for a START outside a frame. -/
theorem feedAwaitStartOpensAFrame : Obligations.FeedAwaitStartOpensAFrame := fun _ hs =>
  exec_feedRow_of_feed rfl rfl (beq_iff_eq.2 hs) (feed_awaitStart hs)

/-- Settles O15, by FEED's row for noise outside a frame. -/
theorem feedAwaitOtherIsIgnored : Obligations.FeedAwaitOtherIsIgnored := fun _ _ hs hb =>
  exec_feedRow_of_feed rfl (bne_iff_ne.2 hb) (beq_iff_eq.2 hs) (feed_awaitOther hs hb)

/-- Settles O16, by FEED's row for a START inside a frame. -/
theorem feedFrameStartRestartsTheFrame : Obligations.FeedFrameStartRestartsTheFrame := fun _ hs =>
  exec_feedRow_of_feed rfl rfl (beq_iff_eq.2 hs) (feed_frameStart hs)

/-- Settles O17, by FEED's row for an ESCAPE inside a frame. -/
theorem feedFrameEscapeSetsTheFlag : Obligations.FeedFrameEscapeSetsTheFlag := fun _ hs =>
  exec_feedRow_of_feed rfl rfl (beq_iff_eq.2 hs) (feed_frameEscape hs)

/-- FEED.FRAME.END on a canonical buffer: the verdict's Message takes the place of the last one where there is one (R219). -/
theorem frameEnd_eq_or (hb : d.buf.length = d.len) :
    d.frameEnd cfg =
      ({ state := .awaitingStart, esc := false, buf := [], len := 0,
         last := (validate cfg d.buf).2.or d.last }, (validate cfg d.buf).1) := by
  rw [frameEnd_eq, Dec.frame_eq hb]
  rcases (validate cfg d.buf).2 with _ | m <;> rfl

/-- Settles O18, by FEED's row for an END inside a frame. -/
theorem feedFrameEndValidatesAndCloses : Obligations.FeedFrameEndValidatesAndCloses :=
  fun _ hs hb => exec_feedRow_of_feed rfl rfl (beq_iff_eq.2 hs)
    ((feed_frameEnd hs).trans (frameEnd_eq_or hb))

/-- The test by which `Instr.wellFormed` admits a DATA byte (R102). -/
theorem not_contains_reserved (hb : b ∉ cfg.reserved) : (!cfg.reserved.contains b) = true := by
  simpa using hb

/-- Settles O19, by FEED's row for a DATA byte with room in the buffer. -/
theorem feedFrameDataAppendsTheByte : Obligations.FeedFrameDataAppendsTheByte := by
  intro s b hs hb he hl hbuf
  have hctx : (Instr.feedFrameData b).appliesIn (s.dec.context s.cfg) = true := by
    simp [Instr.appliesIn, hs, he, hl]
  exact exec_feedRow_of_feed rfl (not_contains_reserved hb) hctx
    ((feed_frameData hs hb he hl).trans (Dec.append_fits b hbuf hl))

/-- Settles O20, by FEED's row for a DATA byte after an ESCAPE, with room in the buffer. -/
theorem feedFrameEscdataAppendsTheComplement :
    Obligations.FeedFrameEscdataAppendsTheComplement := by
  intro s b hs hb he hl hbuf
  have hctx : (Instr.feedFrameEscdata b).appliesIn (s.dec.context s.cfg) = true := by
    simp [Instr.appliesIn, hs, he, hl]
  exact exec_feedRow_of_feed rfl (not_contains_reserved hb) hctx
    ((feed_frameEscdata hs hb he hl).trans
      (Dec.append_fits (d := { s.dec with esc := false }) (complement b) hbuf hl))

/-- Settles O21, by FEED's row for a DATA byte on a full buffer. -/
theorem feedFrameOverrunDiscardsTheFrame : Obligations.FeedFrameOverrunDiscardsTheFrame := by
  intro s b hs hb hfull
  have hctx : (Instr.feedFrameOverrun b).appliesIn (s.dec.context s.cfg) = true := by
    simp [Instr.appliesIn, hs, hfull]
  exact exec_feedRow_of_feed rfl (not_contains_reserved hb) hctx (feed_frameOverrun hs hb hfull.ge)

/-- Settles O22: the instruction's meaning is the working-state reset, in every state. -/
theorem decResetClearsTheWorkingState : Obligations.DecResetClearsTheWorkingState := fun _ => rfl

end Sys2Proof.Machine
end

section
/-! Validation (spec/43_validation.md R210 to R222): each verdict with its condition, when the last good message changes, and the
round trip of a frame through both halves. -/

namespace Sys2Proof.Machine

variable {cfg : Config} {d : Dec}

/-! ### The verdicts (R211 to R215, R220) -/

theorem validate_of_short {f : List Byte} (h : f.length < 2) :
    validate cfg f = (.invalidMessage .lengthError, none) := by
  rw [validate, frameTail_short h]

/-- Past the length and the checksum test, COUNT alone decides whether there is a Message (R214, R215). -/
theorem validate_of_valid {body : List Byte} {count chk : Byte}
    (hlen : count.toNat * 5 + 2 = (body ++ [count, chk]).length)
    (hcrc : crc8 cfg (body ++ [count]) = chk) :
    validate cfg (body ++ [count, chk]) =
      if 1 ≤ count.toNat then
        (.validMessage (firstMessageOf (body ++ [count, chk])),
          firstMessageOf (body ++ [count, chk]))
      else (.validMessage none, none) := by
  have hdrop : (body ++ [count, chk]).dropLast = body ++ [count] := by simp
  rw [validate, frameTail_append, hdrop]
  simp only
  rw [if_neg (not_not.2 hlen), if_neg (not_not.2 hcrc)]

/-- Five bytes are the wire form of one Message (R90). -/
theorem exists_bytes_eq {l : List Byte} (h : l.length = 5) : ∃ m : Message, l = m.bytes := by
  match l, h with
  | [c, v0, v1, v2, v3], _ => exact ⟨⟨c, v0, v1, v2, v3⟩, rfl⟩

/-- Settles O27: one lemma for each verdict. -/
theorem validateGivesTheFirstVerdict : Obligations.ValidateGivesTheFirstVerdict := by
  refine ⟨fun _ _ h => validate_of_short h, ?_⟩
  intro cfg body count chk f
  refine ⟨validate_of_length_ne, validate_of_crc8_ne, fun hlen hcrc hcount => ?_,
    fun hlen hcrc hcount => ?_⟩
  · have hfive : (f.take 5).length = 5 := by rw [List.length_take]; omega
    obtain ⟨m, hm⟩ := exists_bytes_eq hfive
    have hfirst : firstMessageOf f = some m := congrArg messageOfBytes hm
    exact ⟨m, hm, by rw [validate_of_valid hlen hcrc, if_pos hcount, hfirst]⟩
  · rw [validate_of_valid hlen hcrc, if_neg (by omega)]

/-- Settles O28: COUNT is still that of the section before the change, and the section's length is not. -/
theorem truncatedOrPaddedFramesAreLengthErrors :
    Obligations.TruncatedOrPaddedFramesAreLengthErrors := by
  refine fun cfg p q x count chk =>
    ⟨fun hlen => validate_of_length_ne ?_, fun hlen => validate_of_length_ne ?_⟩
  all_goals
    simp only [List.length_append, List.length_cons, List.length_nil] at hlen ⊢
    omega

/-! ### The last good message (R219) -/

/-- `validate` gives a Message exactly when its event carries that Message. -/
theorem validate_message_eq_some_iff {f : List Byte} {m : Message} :
    (validate cfg f).2 = some m ↔ (validate cfg f).1 = .validMessage (some m) := by
  unfold validate
  split
  · simp
  · split_ifs <;> simp

theorem Dec.append_not_valid (x : Byte) :
    (∀ m, (d.append cfg x).2 ≠ .validMessage m) ∧ (d.append cfg x).1.last = d.last := by
  unfold Dec.append
  split <;> exact ⟨fun _ => nofun, rfl⟩

/-- FEED validates on an END alone (R186): otherwise it returns no `valid_message` and keeps the last message. -/
theorem feed_end_or_not_valid (cfg : Config) (d : Dec) (b : Byte) :
    (b = cfg.endByte ∧ d.feed cfg b = d.frameEnd cfg) ∨
      ((∀ m, (d.feed cfg b).2 ≠ .validMessage m) ∧ (d.feed cfg b).1.last = d.last) := by
  rcases feed_cases cfg d b with ⟨-, -, hf⟩ | ⟨-, -, hf⟩ | ⟨-, -, hf⟩ | ⟨-, -, hf⟩ |
    ⟨-, hb, hf⟩ | ⟨-, -, -, -, hf⟩ | ⟨-, -, -, -, hf⟩ | ⟨-, -, -, hf⟩ <;> rw [hf]
  · exact .inr ⟨fun _ => nofun, rfl⟩
  · exact .inr ⟨fun _ => nofun, rfl⟩
  · exact .inr ⟨fun _ => nofun, rfl⟩
  · exact .inr ⟨fun _ => nofun, rfl⟩
  · exact .inl ⟨hb, rfl⟩
  · exact .inr (Dec.append_not_valid b)
  · exact .inr (Dec.append_not_valid (d := { d with esc := false }) (complement b))
  · exact .inr ⟨fun _ => nofun, rfl⟩

/-- FEED latches the Message its event carries, and keeps the last one when its event carries none. -/
theorem feed_last (cfg : Config) (d : Dec) (b : Byte) :
    (∀ m, (d.feed cfg b).2 = .validMessage (some m) → (d.feed cfg b).1.last = some m) ∧
      ((∀ m, (d.feed cfg b).2 ≠ .validMessage (some m)) → (d.feed cfg b).1.last = d.last) := by
  rcases feed_end_or_not_valid cfg d b with ⟨-, hf⟩ | ⟨hevent, hlast⟩
  · rw [hf, frameEnd_eq]
    simp only [ne_eq, ← validate_message_eq_some_iff]
    rcases (validate cfg d.frame).2 with _ | m
    · exact ⟨fun _ h => (nomatch h), fun _ => rfl⟩
    · exact ⟨fun _ h => h, fun h => absurd rfl (h m)⟩
  · exact ⟨fun m h => absurd h (hevent (some m)), fun _ => hlast⟩

/-- A step is a FEED, with FEED's event, or returns no event and keeps the last message. -/
theorem step_feeds_or_keeps_last {s t : State} (h : step s = .next t) :
    (∃ b, t.dec = (s.dec.feed s.cfg b).1 ∧ t.resp = .event (s.dec.feed s.cfg b).2) ∨
      ((∀ e, t.resp ≠ .event e) ∧ t.dec.last = s.dec.last) := by
  rcases step_cases h with ⟨-, rfl⟩ | ⟨b, rest, -, rfl⟩ | ⟨rest, -, rfl⟩ |
    ⟨code, operand, rest, i, -, hd, hx⟩
  · exact .inr ⟨fun _ => nofun, rfl⟩
  · exact .inl ⟨b, rfl, rfl⟩
  · exact .inr ⟨fun _ => nofun, rfl⟩
  · rcases decodeCommand_cases hd with ⟨rfl, -⟩ | ⟨m, rfl, -⟩ | ⟨rfl, -⟩ | ⟨rfl, -⟩ <;> cases hx <;>
      exact .inr ⟨fun _ => nofun, rfl⟩

/-- Settles O29: FEED's share of the last message, and that nothing else a step does returns an event. -/
theorem lastMessageFollowsValidEvents : Obligations.LastMessageFollowsValidEvents := by
  intro s t h
  rcases step_feeds_or_keeps_last h with ⟨b, hdec, hresp⟩ | ⟨hresp, hlast⟩
  · simpa only [hdec, hresp, Response.event.injEq, ne_eq] using feed_last s.cfg s.dec b
  · exact ⟨fun m hm => absurd hm (hresp _), fun _ => hlast⟩

/-! ### The round trip (R221) -/

/-- No frame closes without an END. -/
theorem validMessage_not_mem_feedAll {bytes : List Byte} (hend : cfg.endByte ∉ bytes)
    (m : Option Message) : ∀ d : Dec, .validMessage m ∉ (Dec.feedAll cfg d bytes).2 := by
  induction bytes with
  | nil => exact fun _ => List.not_mem_nil
  | cons b bytes ih =>
    obtain ⟨hb, hrest⟩ := not_or.1 (mt List.mem_cons.2 hend)
    intro d
    rw [feedAll_cons, List.mem_cons, not_or]
    refine ⟨fun heq => ?_, ih hrest _⟩
    rcases feed_end_or_not_valid cfg d b with ⟨rfl, -⟩ | ⟨hevent, -⟩
    · exact hb rfl
    · exact hevent m heq.symm

/-- Any decoder with room for the raw bytes of an escaped frame ends with their verdict, after events that are no
`valid_message`. -/
theorem feedAll_escapedFrame {raw : List Byte} (hfit : raw.length ≤ cfg.decCap) (d : Dec) :
    ∃ before, (∀ m, .validMessage m ∉ before) ∧
      Dec.feedAll cfg d (escapedFrame cfg raw) =
        ({ state := .awaitingStart, esc := false, buf := [], len := 0,
           last := (validate cfg raw).2.or d.last }, before ++ [(validate cfg raw).1]) := by
  have hframe : escapedFrame cfg raw = (cfg.startByte :: stuffAll cfg raw) ++ [cfg.endByte] := rfl
  have hend : cfg.endByte ∉ cfg.startByte :: stuffAll cfg raw :=
    List.not_mem_cons_of_ne_of_not_mem cfg.start_ne_end.symm (end_not_mem_stuffAll raw)
  have hopen : (Dec.feedAll cfg d (cfg.startByte :: stuffAll cfg raw)).1 =
      { d with state := .inFrame, esc := false, buf := raw, len := raw.length } := by
    rw [feedAll_cons, feed_start, feedAll_stuffAll raw _ rfl rfl rfl (by simpa [Dec.awaitStart])]
    simp [Dec.awaitStart]
  refine ⟨_, fun m => validMessage_not_mem_feedAll hend m d, ?_⟩
  rw [hframe, feedAll_append, hopen, feedAll_cons, feed_frameEnd rfl, frameEnd_eq_or rfl]
  rfl

/-- The escape-eligible bytes of the frame of a list of messages (R91). -/
def messagesRaw (cfg : Config) (ms : List Message) : List Byte :=
  ms.flatMap Message.bytes ++
    [countByte ms.length, crc8 cfg (ms.flatMap Message.bytes ++ [countByte ms.length])]

theorem messagesFrame_eq_escapedFrame (cfg : Config) (ms : List Message) :
    messagesFrame cfg ms = escapedFrame cfg (messagesRaw cfg ms) := by
  simp [messagesFrame, messagesRaw]

theorem length_messagesRaw (cfg : Config) (ms : List Message) :
    (messagesRaw cfg ms).length = 5 * ms.length + 2 := by
  rw [messagesRaw, List.length_append, length_flatMap_bytes]
  rfl

/-- What `encode` stuffs is a valid frame, and its Message is the first one (R91, R214). -/
theorem validate_messagesRaw (m : Message) (ms : List Message)
    (h : (m :: ms).length ≤ cfg.encMaxMsgs) :
    validate cfg (messagesRaw cfg (m :: ms)) = (.validMessage (some m), some m) := by
  have hcount := toNat_countByte h
  have hlen : (countByte (m :: ms).length).toNat * 5 + 2 =
      (messagesRaw cfg (m :: ms)).length := by
    rw [hcount, length_messagesRaw, Nat.mul_comm]
  have hfirst : firstMessageOf (messagesRaw cfg (m :: ms)) = some m := by
    rw [messagesRaw, List.flatMap_cons, List.append_assoc, firstMessageOf_append]
  have hpos : 1 ≤ (countByte (m :: ms).length).toNat := hcount.symm.le.trans' (Nat.succ_pos _)
  rw [← hfirst]
  exact (validate_of_valid hlen rfl).trans (if_pos hpos)

/-- Settles O56: `encode` gives the escaped frame of the messages, any decoder ends such a frame with the verdict on its raw bytes,
and that verdict is the first message. -/
theorem decodeOfEncodedFrameIsTheFirstMessage :
    Obligations.DecodeOfEncodedFrameIsTheFirstMessage := by
  intro s m ms h
  obtain ⟨henc, hdec⟩ := Nat.le_min.1 h
  have hfit : (messagesRaw s.cfg (m :: ms)).length ≤ s.cfg.decCap := by
    simp only [length_messagesRaw, List.length_cons] at hdec ⊢
    omega
  obtain ⟨before, hbefore, hfeed⟩ := feedAll_escapedFrame hfit Dec.powerOn
  rw [← messagesFrame_eq_escapedFrame, validate_messagesRaw m ms henc] at hfeed
  have hevents := congrArg Prod.snd hfeed
  refine ⟨_, _, _, messagesFrame s.cfg (m :: ms), _, exec_encodeMessages_of_le s henc, rfl, rfl, ?_,
    rfl, congrArg Response.events hevents, List.getLast?_concat, congrArg Prod.fst hfeed⟩
  have hfirst := firstValidMessage_append [.validMessage (some m)] hbefore
  exact congrArg Response.firstMessage ((congrArg firstValidMessage hevents).trans hfirst)

end Sys2Proof.Machine
end

section
/-! Errors and recovery (spec/60_exceptions.md R230 to R241): every decoder error is the one error entry, and no state of either
half is stuck. -/

namespace Sys2Proof.Machine

variable {cfg : Config} {d : Dec}

/-! ### The decoder error entry (R238) -/

/-- A verdict of `invalid_message` comes without a Message. -/
theorem validate_message_eq_none {f : List Byte} {r : Reason}
    (h : (validate cfg f).1 = .invalidMessage r) : (validate cfg f).2 = none := by
  refine Option.eq_none_iff_forall_ne_some.2 fun m hm => ?_
  cases h.symm.trans (validate_message_eq_some_iff.1 hm)

theorem Dec.append_error {x : Byte} {r : Reason} (h : (d.append cfg x).2 = .invalidMessage r) :
    (d.append cfg x).1 = d.workReset := by
  unfold Dec.append at h ⊢
  split at h
  · cases h
  · rfl

theorem Dec.frameEnd_error {r : Reason} (h : (d.frameEnd cfg).2 = .invalidMessage r) :
    (d.frameEnd cfg).1 = d.workReset := by
  rw [frameEnd_eq] at h ⊢
  simp only [validate_message_eq_none h]
  rfl

/-- Whatever the byte and the reason, FEED answers `invalid_message` only with the working-state reset. -/
theorem feed_error {b : Byte} {r : Reason} (h : (d.feed cfg b).2 = .invalidMessage r) :
    (d.feed cfg b).1 = d.workReset := by
  rcases feed_cases cfg d b with ⟨-, -, hf⟩ | ⟨-, -, hf⟩ | ⟨-, -, hf⟩ | ⟨-, -, hf⟩ |
    ⟨-, -, hf⟩ | ⟨-, -, -, -, hf⟩ | ⟨-, -, -, -, hf⟩ | ⟨-, -, -, hf⟩ <;> rw [hf] at h ⊢
  · cases h
  · cases h
  · cases h
  · cases h
  · exact Dec.frameEnd_error h
  · exact Dec.append_error h
  · exact Dec.append_error (d := { d with esc := false }) h
  · rfl

/-- Only FEED answers with an event: the step that does serves a byte (R106). -/
theorem step_event {s t : State} {e : DecodeEvent} (h : step s = .next t)
    (he : t.resp = .event e) :
    ∃ b rest, s.input = .byte b :: rest ∧ (s.dec.feed s.cfg b).2 = e ∧
      t = (s.withInput rest).completeDec (s.dec.feed s.cfg b).1 (.event e) := by
  rcases step_cases h with ⟨-, rfl⟩ | ⟨b, rest, hinput, rfl⟩ | ⟨rest, -, rfl⟩ |
    ⟨code, operand, rest, i, -, hd, hx⟩
  · cases he
  · cases he
    exact ⟨b, rest, hinput, rfl, rfl⟩
  · cases he
  · rcases decodeCommand_cases hd with ⟨rfl, -⟩ | ⟨m, rfl, -⟩ | ⟨rfl, -⟩ | ⟨rfl, -⟩ <;> cases hx <;>
      cases he

/-- Settles O30: the step is a FEED, and FEED's errors all leave the working-state reset. -/
theorem everyDecoderErrorDiscardsAndResets : Obligations.EveryDecoderErrorDiscardsAndResets := by
  intro s t r h hresp
  obtain ⟨b, rest, -, hevent, rfl⟩ := step_event h hresp
  exact ⟨feed_error hevent, rfl, rfl⟩

/-! ### Recovery (R241) -/

/-- Outside a frame the invariants already say that the working state is the reset one. -/
theorem Dec.workReset_of_awaitingStart (hd : d.Inv cfg) (hs : d.state = .awaitingStart) :
    d.workReset = d := by
  obtain ⟨hlen, hesc⟩ := hd.awaiting_empty hs
  have hbuf : d.buf = [] := List.eq_nil_of_length_eq_zero (hd.buf_length.trans hlen)
  rw [Dec.workReset, ← hs, ← hesc, ← hbuf, ← hlen]

/-- END leaves the reset working state from inside a frame and from outside it, whatever the verdict. -/
theorem feed_end (hd : d.Inv cfg) : ∃ l, (d.feed cfg cfg.endByte).1 = d.workReset.withLast l := by
  rcases hs : d.state with _ | _
  · rw [feed_awaitOther hs cfg.start_ne_end.symm, Dec.workReset_of_awaitingStart hd hs]
    exact ⟨d.last, rfl⟩
  · rw [feed_frameEnd hs, frameEnd_eq]
    exact ⟨_, rfl⟩

/-- Settles O60: the four requests by what FEED and the two commands leave. -/
theorem noStateIsStuck : Obligations.NoStateIsStuck := by
  intro s rest
  refine ⟨fun hin => ⟨_, step_byte hin, ?_⟩, fun hd hin => ⟨_, step_byte hin, ?_⟩,
    fun b hs hb hfull hin => ⟨_, step_byte hin, ?_⟩, fun code hcode hin => ?_⟩
  · rw [State.completeDec_dec, feed_start]
    exact ⟨rfl, rfl, rfl, rfl⟩
  · obtain ⟨l, hfeed⟩ := feed_end hd
    rw [State.completeDec_dec, hfeed]
    exact ⟨rfl, rfl, rfl, rfl⟩
  · rw [State.completeDec_dec, feed_frameOverrun hs hb hfull.ge]
    exact ⟨rfl, rfl, rfl, rfl⟩
  · rcases hcode with rfl | rfl
    · exact ⟨_, step_decoded (i := .encReset) hin rfl, rfl, rfl, rfl⟩
    · exact ⟨_, step_decoded (i := .finalize) hin rfl, rfl, rfl, rfl⟩

end Sys2Proof.Machine
end

section
/-! Reset and hazards (spec/70_reset_and_hazards.md R260, R270): the registers after power-on, and what becomes of a frame whose
checksum of reserved value was not stuffed. -/

namespace Sys2Proof.Machine

variable {cfg : Config} {d : Dec}

/-! ### Power-on (R260) -/

/-- Settles O8: each register of the power-on state, by evaluation. -/
theorem powerOnRegisters : Obligations.PowerOnRegisters :=
  ⟨fun _ => ⟨rfl, rfl, rfl, rfl, rfl, rfl, rfl, rfl, rfl, rfl, rfl⟩, rfl⟩

/-! ### A checksum of reserved value left unstuffed (R270) -/

/-- Messages are five bytes each, so a frame whose length is not 2 modulo 5 has the wrong length whatever its COUNT says (R211,
R212). -/
theorem validate_of_length_mod_ne {f : List Byte} (h : f.length % 5 ≠ 2) :
    validate cfg f = (.invalidMessage .lengthError, none) := by
  rcases Nat.lt_or_ge f.length 2 with hshort | htail
  · exact validate_of_short hshort
  · obtain ⟨body, count, chk, rfl⟩ := exists_tail htail
    exact validate_of_length_ne (by omega)

theorem feed_end_of_length_mod_ne (hs : d.state = .inFrame) (hb : d.buf.length = d.len)
    (hmod : d.len % 5 ≠ 2) :
    d.feed cfg cfg.endByte = (d.workReset, .invalidMessage .lengthError) := by
  rw [feed_frameEnd hs, frameEnd_eq_or hb, validate_of_length_mod_ne (hb ▸ hmod)]
  rfl

/-- An END right after a START closes an empty frame, too short to be one (R211). -/
theorem feed_end_of_restarted (d : Dec) :
    d.frameStart.1.feed cfg cfg.endByte =
      (d.frameStart.1.workReset, .invalidMessage .lengthError) :=
  feed_end_of_length_mod_ne rfl rfl (Nat.zero_ne_add_one 1)

/-- The raw bytes of an open frame, sent stuffed after its START, are what the decoder then holds. -/
theorem feedAll_start_stuffAll {raw : List Byte} (hfit : raw.length ≤ cfg.decCap) (d : Dec) :
    (Dec.feedAll cfg d (cfg.startByte :: stuffAll cfg raw)).1 =
      { d with state := .inFrame, esc := false, buf := raw, len := raw.length } := by
  have hroom : d.awaitStart.1.len + raw.length ≤ cfg.decCap := by simpa [Dec.awaitStart] using hfit
  rw [feedAll_cons, feed_start, feedAll_stuffAll raw _ rfl rfl rfl hroom]
  simp [Dec.awaitStart]

/-- The events of two more bytes, after those of the bytes sent before them. -/
theorem feedAll_drop_events (sent : List Byte) (b c : Byte) (d : Dec) :
    (Dec.feedAll cfg d (sent ++ [b, c])).2.drop sent.length =
      [((Dec.feedAll cfg d sent).1.feed cfg b).2,
        (((Dec.feedAll cfg d sent).1.feed cfg b).1.feed cfg c).2] := by
  rw [feedAll_append]
  exact List.drop_left' (feedAll_events_length cfg sent d)

/-- Settles O57: without its checksum byte the section and COUNT are one byte more than whole messages, a length no COUNT fits; nor
does any fit the empty frame that a literal START opens. -/
theorem unstuffedChecksumIsRejected : Obligations.UnstuffedChecksumIsRejected := by
  intro cfg body count hlen hfit sent events
  have hraw : (body ++ [count]).length = body.length + 1 := List.length_append
  have hmod : (body ++ [count]).length % 5 ≠ 2 := by omega
  have hopen := feedAll_start_stuffAll (hraw.trans_le hfit) Dec.powerOn
  simp only [events, feedAll_drop_events, sent, hopen]
  refine ⟨?closed, ?restarted, ?escaped⟩
  case closed =>
    rw [feed_end_of_length_mod_ne rfl rfl hmod, feed_awaitOther rfl cfg.start_ne_end.symm]
    rfl
  case restarted =>
    rw [feed_frameStart rfl, feed_end_of_restarted]
    rfl
  case escaped =>
    rw [feed_frameEscape rfl, Dec.frameEscape, feed_end_of_length_mod_ne rfl rfl hmod]

end Sys2Proof.Machine
end
